-- ==== Sys2Proof/Word.lean ====
section
/-! DEFINITION. The two bit-vector types of the machine (00_scope.md rules R7 and R8). -/

namespace Sys2Proof

/-- A byte: 8 bits, bit 0 the least significant (00_scope.md R7). -/
abbrev Byte := BitVec 8

/-- The spec's `u64`: registers, `valA`, `valE`, `valC` and the pc (00_scope.md R8; `XLEN` = 64, R5). -/
abbrev Word := BitVec 64

/-- `sign(v)`: bit 63 (00_scope.md R8). -/
abbrev Word.sign (v : Word) : Bool := v.msb

end Sys2Proof
end

