-- ==== Sys2Proof/Syntax.lean ====
section
/-! DEFINITION. The instruction set as syntax: registers, conditions and the 33 instructions, one constructor for each row of
the opcode table (30_encoding.md rule R95). A form carries only the operands its family needs, and an operand that must be a
register is a `Reg`, so that the sentinel 0xF cannot stand where the decoder refuses it (10_state.md R22, R34). -/

namespace Sys2Proof

/-- The fifteen general registers, in the order of the source's enumeration (10_state.md R20, R21). -/
inductive Reg where
  | rax | rcx | rdx | rbx | rsp | rbp | rsi | rdi
  | r8 | r9 | r10 | r11 | r12 | r13 | r14
  deriving DecidableEq, Repr

/-- The seven conditions shared by the conditional moves and the jumps (30_encoding.md R91, 40_execution_model.md R136). -/
inductive Cond where
  | always | le | l | e | ne | ge | g
  deriving DecidableEq, Repr

/-- The four operations of the arithmetic family (30_encoding.md R92). -/
inductive AluOp where
  | add | sub | and | xor
  deriving DecidableEq, Repr

/-- The instructions (30_encoding.md R95). `rA` is the register of the high nibble, `rB` that of the low nibble; the base of
`rmmovq` and `mrmovq` may be absent (30_encoding.md R93), and `dest`, `disp` and `imm` are the constant `valC` (R85). -/
inductive Instr where
  /-- R160 -/
  | halt
  /-- R161 -/
  | nop
  /-- R171 -/
  | rrmovq (rA rB : Reg)
  /-- R172 -/
  | cmovle (rA rB : Reg)
  /-- R173 -/
  | cmovl (rA rB : Reg)
  /-- R174 -/
  | cmove (rA rB : Reg)
  /-- R175 -/
  | cmovne (rA rB : Reg)
  /-- R176 -/
  | cmovge (rA rB : Reg)
  /-- R177 -/
  | cmovg (rA rB : Reg)
  /-- R178 -/
  | irmovq (imm : Word) (rB : Reg)
  /-- R179: `rmmovq rA, disp(rB)` -/
  | rmmovq (rA : Reg) (rB : Option Reg) (disp : Word)
  /-- R180: `mrmovq disp(rB), rA` -/
  | mrmovq (rA : Reg) (rB : Option Reg) (disp : Word)
  /-- R191 -/
  | addq (rA rB : Reg)
  /-- R192 -/
  | subq (rA rB : Reg)
  /-- R193 -/
  | andq (rA rB : Reg)
  /-- R194 -/
  | xorq (rA rB : Reg)
  /-- R200 -/
  | jmp (dest : Word)
  /-- R201 -/
  | jle (dest : Word)
  /-- R202 -/
  | jl (dest : Word)
  /-- R203 -/
  | je (dest : Word)
  /-- R204 -/
  | jne (dest : Word)
  /-- R205 -/
  | jge (dest : Word)
  /-- R206 -/
  | jg (dest : Word)
  /-- R207 -/
  | call (dest : Word)
  /-- R208 -/
  | ret
  /-- R220 -/
  | pushq (rA : Reg)
  /-- R221 -/
  | popq (rA : Reg)
  /-- R232 -/
  | iotrap0
  /-- R233 -/
  | iotrap1
  /-- R234 -/
  | iotrap2
  /-- R235 -/
  | iotrap3
  /-- R236 -/
  | iotrap4
  /-- R237 -/
  | iotrap5
  deriving DecidableEq, Repr

end Sys2Proof
end

