-- ==== Sys2Proof/WellFormed.lean ====
section
/-! DEFINITION. Well-formedness of the raw fields of an instruction, before they are given a meaning: the spec's tables of legal
family codes and sub-functions (30_encoding.md R82, R87, R90) and of legal register fields (R93), written as checks on numbers.
`Sys2Proof.Instr` makes the ill-formed combinations unrepresentable (10_state.md R34), so every `Instr` has well-formed fields
(`Sys2Proof.Instr.fields`, Decode.lean); the decoder accepts exactly the well-formed ones. -/

namespace Sys2Proof

/-- The components of the decoded record as the bytes give them (10_state.md R33, less the tag INVALID and `valP`). A format
without a register byte has both register fields at the sentinel, a format without a constant has `valC` at 0. -/
structure Fields where
  icode : BitVec 4
  ifun  : BitVec 4
  rA    : BitVec 4
  rB    : BitVec 4
  valC  : Word
  deriving DecidableEq, Repr

/-- The sentinel `RNONE`, "absent operand" (00_scope.md R5, 10_state.md R22). -/
def rnone : BitVec 4 := 0xF

/-- Check I1: the family code is one of the thirteen, 0x0 to 0xC (30_encoding.md R82, R87). -/
def Fields.definedFamily (f : Fields) : Bool := decide (f.icode.toNat ≤ 0xC)

/-- The greatest legal sub-function of a family code (30_encoding.md R90). -/
def maxIfun (icode : BitVec 4) : Nat :=
  match icode.toNat with
  | 0x2 => 6
  | 0x6 => 3
  | 0x7 => 6
  | 0xC => 5
  | _ => 0

/-- Check I2: the sub-function does not exceed the family's maximum (30_encoding.md R87, R90). -/
def Fields.subFunctionInRange (f : Fields) : Bool := decide (f.ifun.toNat ≤ maxIfun f.icode)

/-- Check I3: the register fields meet the family's row of 30_encoding.md R93; formats F1 and F9 have no constraint. -/
def Fields.registersLegal (f : Fields) : Bool :=
  match f.icode.toNat with
  | 0x2 => f.rA != rnone && f.rB != rnone
  | 0x3 => f.rA == rnone && f.rB != rnone
  | 0x4 => f.rA != rnone
  | 0x5 => f.rA != rnone
  | 0x6 => f.rA != rnone && f.rB != rnone
  | 0xA => f.rA != rnone && f.rB == rnone
  | 0xB => f.rA != rnone && f.rB == rnone
  | _ => true

/-- The fields spell an instruction (30_encoding.md R87, R90, R93; R101: every other combination faults). -/
def Fields.wellFormed (f : Fields) : Bool := f.definedFamily && f.subFunctionInRange && f.registersLegal

end Sys2Proof
end

