-- ==== Sys2Proof/Decode.lean ====
section
/-! DEFINITION. The instruction decoder (30_encoding.md rules R80 to R94) and the encoder written from the same tables. The
decoder reads a list of bytes: those of the memory image from the pc on, up to ten and never past the end of memory (10_state.md
R38), so that "the span leaves memory" is "the list is too short". It is total and rejects by name. -/

namespace Sys2Proof

/-! ## Bytes and fields -/

/-- The high 4 bits of a byte (00_scope.md R7). -/
def hiNibble (b : Byte) : BitVec 4 := b.extractLsb' 4 4

/-- The low 4 bits of a byte (00_scope.md R7). -/
def loNibble (b : Byte) : BitVec 4 := b.extractLsb' 0 4

/-- The byte with the given high and low nibbles. -/
def byteOf (hi lo : BitVec 4) : Byte := hi ++ lo

/-- The `n` low-order bytes of a number, least significant first (20_memory.md R55, R57). -/
def bytesLE : Nat → Nat → List Byte
  | 0, _ => []
  | n + 1, x => BitVec.ofNat 8 x :: bytesLE n (x / 256)

/-- The number whose bytes, least significant first, are given: the sum of `byte k * 2^(8k)` (20_memory.md R56). -/
def natLE : List Byte → Nat
  | [] => 0
  | b :: bs => b.toNat + 256 * natLE bs

/-- The eight bytes of a 64-bit value, in increasing address order. -/
def wordBytes (v : Word) : List Byte := bytesLE 8 v.toNat

/-- `LE64`: the 64-bit value of eight bytes given in increasing address order (00_scope.md R9). -/
def wordOfBytes (bs : List Byte) : Word := BitVec.ofNat 64 (natLE bs)

/-! ## The tables of the encoding -/

/-- The number of a register (10_state.md R21). -/
def Reg.code : Reg → BitVec 4
  | .rax => 0x0 | .rcx => 0x1 | .rdx => 0x2 | .rbx => 0x3
  | .rsp => 0x4 | .rbp => 0x5 | .rsi => 0x6 | .rdi => 0x7
  | .r8 => 0x8 | .r9 => 0x9 | .r10 => 0xA | .r11 => 0xB
  | .r12 => 0xC | .r13 => 0xD | .r14 => 0xE

/-- The register a 4-bit field names, none for the sentinel 0xF (10_state.md R21, R22; 30_encoding.md R84). -/
def regOf (c : BitVec 4) : Option Reg :=
  match c.toNat with
  | 0x0 => some .rax | 0x1 => some .rcx | 0x2 => some .rdx | 0x3 => some .rbx
  | 0x4 => some .rsp | 0x5 => some .rbp | 0x6 => some .rsi | 0x7 => some .rdi
  | 0x8 => some .r8 | 0x9 => some .r9 | 0xA => some .r10 | 0xB => some .r11
  | 0xC => some .r12 | 0xD => some .r13 | 0xE => some .r14
  | _ => none

/-- The field of an operand that may be absent (30_encoding.md R93). -/
def regField : Option Reg → BitVec 4
  | some r => r.code
  | none => rnone

/-- The sub-function number of a condition (30_encoding.md R91). -/
def Cond.code : Cond → BitVec 4
  | .always => 0 | .le => 1 | .l => 2 | .e => 3 | .ne => 4 | .ge => 5 | .g => 6

/-- The condition of a sub-function number; none above 6 (30_encoding.md R90, R91). -/
def condOf (ifun : BitVec 4) : Option Cond :=
  match ifun.toNat with
  | 0 => some .always | 1 => some .le | 2 => some .l | 3 => some .e
  | 4 => some .ne | 5 => some .ge | 6 => some .g
  | _ => none

/-- The sub-function number of an arithmetic operation (30_encoding.md R92). -/
def AluOp.code : AluOp → BitVec 4
  | .add => 0 | .sub => 1 | .and => 2 | .xor => 3

/-- The arithmetic operation of a sub-function number; none above 3 (30_encoding.md R90, R92). -/
def aluOpOf (ifun : BitVec 4) : Option AluOp :=
  match ifun.toNat with
  | 0 => some .add | 1 => some .sub | 2 => some .and | 3 => some .xor
  | _ => none

/-- What a legal opcode byte says: the family and, where it has several members, which (30_encoding.md R82, R95). -/
inductive Opcode where
  | halt | nop
  | cmov (c : Cond)
  | irmovq | rmmovq | mrmovq
  | opq (op : AluOp)
  | jump (c : Cond)
  | call | ret | pushq | popq
  | iotrap (n : Fin 6)
  deriving DecidableEq, Repr

/-- The family code (30_encoding.md R82). -/
def Opcode.icode : Opcode → BitVec 4
  | .halt => 0x0 | .nop => 0x1 | .cmov _ => 0x2 | .irmovq => 0x3 | .rmmovq => 0x4 | .mrmovq => 0x5
  | .opq _ => 0x6 | .jump _ => 0x7 | .call => 0x8 | .ret => 0x9 | .pushq => 0xA | .popq => 0xB
  | .iotrap _ => 0xC

/-- The sub-function number (30_encoding.md R90 to R92). -/
def Opcode.ifun : Opcode → BitVec 4
  | .cmov c => c.code
  | .opq op => op.code
  | .jump c => c.code
  | .iotrap n => BitVec.ofNat 4 n.val
  | _ => 0

/-- The length in bytes, a function of the family alone (30_encoding.md R81, R82, R96). -/
def Opcode.length : Opcode → Nat
  | .halt => 1 | .nop => 1 | .ret => 1 | .iotrap _ => 1
  | .cmov _ => 2 | .opq _ => 2 | .pushq => 2 | .popq => 2
  | .jump _ => 9 | .call => 9
  | .irmovq => 10 | .rmmovq => 10 | .mrmovq => 10

/-- Why a decode fails. The names are the sub-causes of 60_exceptions.md R252 and R253; the hardware records only the status. -/
inductive DecodeFault where
  /-- A1: the start address is out of bounds (30_encoding.md R86). -/
  | startOutOfBounds
  /-- A2: the span of the instruction leaves memory (30_encoding.md R88). -/
  | spanOutOfBounds
  /-- I1: the family code is above 0xC (30_encoding.md R87). -/
  | undefinedFamily
  /-- I2: the sub-function is above the family's maximum (30_encoding.md R87, R90). -/
  | subFunctionOutOfRange
  /-- I3: the register byte breaks the family's row (30_encoding.md R93). -/
  | registerConstraint
  deriving DecidableEq, Repr

/-- A family with one member: its sub-function must be 0 (30_encoding.md R90). -/
def soleMember (op : Opcode) (ifun : BitVec 4) : Except DecodeFault Opcode :=
  if ifun = 0 then .ok op else .error .subFunctionOutOfRange

/-- A family with several members: its sub-function must name one (30_encoding.md R90). -/
def memberOf {α : Type} (mk : α → Opcode) : Option α → Except DecodeFault Opcode
  | some a => .ok (mk a)
  | none => .error .subFunctionOutOfRange

/-- The trap number of a sub-function; none above 5 (30_encoding.md R90). -/
def trapOf (ifun : BitVec 4) : Option (Fin 6) :=
  if h : ifun.toNat < 6 then some ⟨ifun.toNat, h⟩ else none

/-- The opcode check, on the first byte alone (30_encoding.md R80, R82, R87). -/
def decodeOpcode (b0 : Byte) : Except DecodeFault Opcode :=
  match (hiNibble b0).toNat with
  | 0x0 => soleMember .halt (loNibble b0)
  | 0x1 => soleMember .nop (loNibble b0)
  | 0x2 => memberOf .cmov (condOf (loNibble b0))
  | 0x3 => soleMember .irmovq (loNibble b0)
  | 0x4 => soleMember .rmmovq (loNibble b0)
  | 0x5 => soleMember .mrmovq (loNibble b0)
  | 0x6 => memberOf .opq (aluOpOf (loNibble b0))
  | 0x7 => memberOf .jump (condOf (loNibble b0))
  | 0x8 => soleMember .call (loNibble b0)
  | 0x9 => soleMember .ret (loNibble b0)
  | 0xA => soleMember .pushq (loNibble b0)
  | 0xB => soleMember .popq (loNibble b0)
  | 0xC => memberOf .iotrap (trapOf (loNibble b0))
  | _ => .error .undefinedFamily

/-! ## From an opcode and its operands to an instruction -/

/-- The conditional move of a condition (30_encoding.md R91). -/
def cmovInstr : Cond → Reg → Reg → Instr
  | .always => .rrmovq | .le => .cmovle | .l => .cmovl | .e => .cmove
  | .ne => .cmovne | .ge => .cmovge | .g => .cmovg

/-- The jump of a condition (30_encoding.md R91). -/
def jumpInstr : Cond → Word → Instr
  | .always => .jmp | .le => .jle | .l => .jl | .e => .je
  | .ne => .jne | .ge => .jge | .g => .jg

/-- The arithmetic instruction of an operation (30_encoding.md R92). -/
def opqInstr : AluOp → Reg → Reg → Instr
  | .add => .addq | .sub => .subq | .and => .andq | .xor => .xorq

/-- The IOTRAP of a sub-function (30_encoding.md R95). -/
def iotrapInstr : Fin 6 → Instr
  | 0 => .iotrap0 | 1 => .iotrap1 | 2 => .iotrap2 | 3 => .iotrap3 | 4 => .iotrap4 | 5 => .iotrap5

/-- An instruction, if the register fields meet the constraint of its family (30_encoding.md R93). -/
def constrained : Option Instr → Except DecodeFault Instr
  | some i => .ok i
  | none => .error .registerConstraint

/-- Both register fields name registers: conditional moves and arithmetic (30_encoding.md R93). -/
def twoRegs (mk : Reg → Reg → Instr) : Option Reg → Option Reg → Option Instr
  | some a, some b => some (mk a b)
  | _, _ => none

/-- The first names a register, the second is the sentinel: PUSHQ and POPQ (30_encoding.md R93). -/
def firstReg (mk : Reg → Instr) : Option Reg → Option Reg → Option Instr
  | some a, none => some (mk a)
  | _, _ => none

/-- The first is the sentinel, the second names a register: IRMOVQ (30_encoding.md R93). -/
def secondReg (mk : Reg → Instr) : Option Reg → Option Reg → Option Instr
  | none, some b => some (mk b)
  | _, _ => none

/-- The first names a register, the second is any: RMMOVQ and MRMOVQ (30_encoding.md R93). -/
def regAndBase (mk : Reg → Option Reg → Instr) : Option Reg → Option Reg → Option Instr
  | some a, b => some (mk a b)
  | none, _ => none

/-- The constant of a format that has one: `b1 .. b8` in the 9-byte format, `b2 .. b9` in the 10-byte format (30_encoding.md R83,
R85, R89). `rest` is what follows the opcode byte. -/
def constOf (op : Opcode) (rest : List Byte) : Word :=
  if op.length = 9 then wordOfBytes (rest.take 8) else wordOfBytes ((rest.drop 1).take 8)

/-- The instruction of an opcode and its fields, if the register fields meet the family's constraint (30_encoding.md R93, R94). -/
def instrOf (op : Opcode) (rA rB : Option Reg) (valC : Word) : Except DecodeFault Instr :=
  match op with
  | .halt => .ok .halt
  | .nop => .ok .nop
  | .ret => .ok .ret
  | .iotrap n => .ok (iotrapInstr n)
  | .cmov c => constrained (twoRegs (cmovInstr c) rA rB)
  | .opq o => constrained (twoRegs (opqInstr o) rA rB)
  | .pushq => constrained (firstReg .pushq rA rB)
  | .popq => constrained (firstReg .popq rA rB)
  | .jump c => .ok (jumpInstr c valC)
  | .call => .ok (.call valC)
  | .irmovq => constrained (secondReg (.irmovq valC) rA rB)
  | .rmmovq => constrained (regAndBase (.rmmovq · · valC) rA rB)
  | .mrmovq => constrained (regAndBase (.mrmovq · · valC) rA rB)

/-- Field extraction and the register-field check (30_encoding.md R89, R93). `rest` is what follows the opcode byte; the caller
has checked that the span is there. -/
def decodeOperands (op : Opcode) (rest : List Byte) : Except DecodeFault Instr :=
  instrOf op (regOf (hiNibble (rest.headD 0))) (regOf (loNibble (rest.headD 0))) (constOf op rest)

/-- `Decode` (30_encoding.md R86 to R94), the checks in the order of 60_exceptions.md R257: start address, opcode byte, span,
register byte. The list holds the bytes from the pc on. An error is the tag INVALID of R102. -/
def decode : List Byte → Except DecodeFault Instr
  | [] => .error .startOutOfBounds
  | b0 :: rest =>
    match decodeOpcode b0 with
    | .error f => .error f
    | .ok op => if rest.length + 1 < op.length then .error .spanOutOfBounds else decodeOperands op rest

/-! ## The encoder -/

/-- The opcode of an instruction (30_encoding.md R95). -/
def Instr.opcode : Instr → Opcode
  | .halt => .halt
  | .nop => .nop
  | .rrmovq _ _ => .cmov .always
  | .cmovle _ _ => .cmov .le
  | .cmovl _ _ => .cmov .l
  | .cmove _ _ => .cmov .e
  | .cmovne _ _ => .cmov .ne
  | .cmovge _ _ => .cmov .ge
  | .cmovg _ _ => .cmov .g
  | .irmovq _ _ => .irmovq
  | .rmmovq _ _ _ => .rmmovq
  | .mrmovq _ _ _ => .mrmovq
  | .addq _ _ => .opq .add
  | .subq _ _ => .opq .sub
  | .andq _ _ => .opq .and
  | .xorq _ _ => .opq .xor
  | .jmp _ => .jump .always
  | .jle _ => .jump .le
  | .jl _ => .jump .l
  | .je _ => .jump .e
  | .jne _ => .jump .ne
  | .jge _ => .jump .ge
  | .jg _ => .jump .g
  | .call _ => .call
  | .ret => .ret
  | .pushq _ => .pushq
  | .popq _ => .popq
  | .iotrap0 => .iotrap 0
  | .iotrap1 => .iotrap 1
  | .iotrap2 => .iotrap 2
  | .iotrap3 => .iotrap 3
  | .iotrap4 => .iotrap 4
  | .iotrap5 => .iotrap 5

/-- The length of an instruction in bytes (30_encoding.md R81, R82). -/
def Instr.length (i : Instr) : Nat := i.opcode.length

/-- The two register fields (30_encoding.md R93, R95; 10_state.md R34); the sentinel where the form has no such operand. -/
def Instr.regFields : Instr → BitVec 4 × BitVec 4
  | .rrmovq a b => (a.code, b.code)
  | .cmovle a b => (a.code, b.code)
  | .cmovl a b => (a.code, b.code)
  | .cmove a b => (a.code, b.code)
  | .cmovne a b => (a.code, b.code)
  | .cmovge a b => (a.code, b.code)
  | .cmovg a b => (a.code, b.code)
  | .addq a b => (a.code, b.code)
  | .subq a b => (a.code, b.code)
  | .andq a b => (a.code, b.code)
  | .xorq a b => (a.code, b.code)
  | .irmovq _ b => (rnone, b.code)
  | .rmmovq a b _ => (a.code, regField b)
  | .mrmovq a b _ => (a.code, regField b)
  | .pushq a => (a.code, rnone)
  | .popq a => (a.code, rnone)
  | .halt | .nop | .ret | .jmp _ | .jle _ | .jl _ | .je _ | .jne _ | .jge _ | .jg _ | .call _
  | .iotrap0 | .iotrap1 | .iotrap2 | .iotrap3 | .iotrap4 | .iotrap5 => (rnone, rnone)

/-- The constant `valC` (30_encoding.md R85); 0 where the form has none. -/
def Instr.const : Instr → Word
  | .irmovq v _ => v
  | .rmmovq _ _ d => d
  | .mrmovq _ _ d => d
  | .jmp d => d
  | .jle d => d
  | .jl d => d
  | .je d => d
  | .jne d => d
  | .jge d => d
  | .jg d => d
  | .call d => d
  | .halt | .nop | .ret | .rrmovq _ _ | .cmovle _ _ | .cmovl _ _ | .cmove _ _ | .cmovne _ _ | .cmovge _ _ | .cmovg _ _
  | .addq _ _ | .subq _ _ | .andq _ _ | .xorq _ _ | .pushq _ | .popq _
  | .iotrap0 | .iotrap1 | .iotrap2 | .iotrap3 | .iotrap4 | .iotrap5 => 0

/-- The raw fields of an instruction (10_state.md R33, R34). -/
def Instr.fields (i : Instr) : Fields where
  icode := i.opcode.icode
  ifun := i.opcode.ifun
  rA := i.regFields.1
  rB := i.regFields.2
  valC := i.const

/-- The instruction's fields are well-formed; true of every `Instr` (Laws/Decode.lean). -/
def Instr.wellFormed (i : Instr) : Bool := i.fields.wellFormed

/-- The bytes an instruction is encoded as, in increasing address order (30_encoding.md R81, R83, R85). -/
def encode (i : Instr) : List Byte :=
  let b0 := byteOf i.opcode.icode i.opcode.ifun
  let b1 := byteOf i.regFields.1 i.regFields.2
  match i.length with
  | 1 => [b0]
  | 2 => [b0, b1]
  | 9 => b0 :: wordBytes i.const
  | _ => b0 :: b1 :: wordBytes i.const

/-! ## The opcode table -/

/-- What a mask cannot say: an entry of a row's `constraints` (30_encoding.md R97). -/
inductive RowConstraint where
  /-- `rA != 0xF` -/
  | rANotSentinel
  /-- `rB != 0xF` -/
  | rBNotSentinel
  deriving DecidableEq, Repr

/-- A constraint holds of the register byte `b1` (30_encoding.md R97). -/
def RowConstraint.holds (c : RowConstraint) (b1 : Byte) : Bool :=
  match c with
  | .rANotSentinel => hiNibble b1 != rnone
  | .rBNotSentinel => loNibble b1 != rnone

/-- A row of spec/opcode_table.json: `mask` and `pattern` are over `b0` in the 8-bit rows and over `b0 * 256 + b1` in the 16-bit
rows, and `constraints` lists what the register byte must meet besides (30_encoding.md R97). -/
structure TableRow where
  wide    : Bool
  pattern : BitVec 16
  mask    : BitVec 16
  length  : Nat
  constraints : List RowConstraint
  deriving DecidableEq, Repr

/-- The instruction's row (spec/opcode_table.json). -/
def Instr.row : Instr → TableRow
  | .halt => ⟨false, 0x00, 0xFF, 1, []⟩
  | .nop => ⟨false, 0x10, 0xFF, 1, []⟩
  | .rrmovq _ _ => ⟨true, 0x2000, 0xFF00, 2, [.rANotSentinel, .rBNotSentinel]⟩
  | .cmovle _ _ => ⟨true, 0x2100, 0xFF00, 2, [.rANotSentinel, .rBNotSentinel]⟩
  | .cmovl _ _ => ⟨true, 0x2200, 0xFF00, 2, [.rANotSentinel, .rBNotSentinel]⟩
  | .cmove _ _ => ⟨true, 0x2300, 0xFF00, 2, [.rANotSentinel, .rBNotSentinel]⟩
  | .cmovne _ _ => ⟨true, 0x2400, 0xFF00, 2, [.rANotSentinel, .rBNotSentinel]⟩
  | .cmovge _ _ => ⟨true, 0x2500, 0xFF00, 2, [.rANotSentinel, .rBNotSentinel]⟩
  | .cmovg _ _ => ⟨true, 0x2600, 0xFF00, 2, [.rANotSentinel, .rBNotSentinel]⟩
  | .irmovq _ _ => ⟨true, 0x30F0, 0xFFF0, 10, [.rBNotSentinel]⟩
  | .rmmovq _ _ _ => ⟨true, 0x4000, 0xFF00, 10, [.rANotSentinel]⟩
  | .mrmovq _ _ _ => ⟨true, 0x5000, 0xFF00, 10, [.rANotSentinel]⟩
  | .addq _ _ => ⟨true, 0x6000, 0xFF00, 2, [.rANotSentinel, .rBNotSentinel]⟩
  | .subq _ _ => ⟨true, 0x6100, 0xFF00, 2, [.rANotSentinel, .rBNotSentinel]⟩
  | .andq _ _ => ⟨true, 0x6200, 0xFF00, 2, [.rANotSentinel, .rBNotSentinel]⟩
  | .xorq _ _ => ⟨true, 0x6300, 0xFF00, 2, [.rANotSentinel, .rBNotSentinel]⟩
  | .jmp _ => ⟨false, 0x70, 0xFF, 9, []⟩
  | .jle _ => ⟨false, 0x71, 0xFF, 9, []⟩
  | .jl _ => ⟨false, 0x72, 0xFF, 9, []⟩
  | .je _ => ⟨false, 0x73, 0xFF, 9, []⟩
  | .jne _ => ⟨false, 0x74, 0xFF, 9, []⟩
  | .jge _ => ⟨false, 0x75, 0xFF, 9, []⟩
  | .jg _ => ⟨false, 0x76, 0xFF, 9, []⟩
  | .call _ => ⟨false, 0x80, 0xFF, 9, []⟩
  | .ret => ⟨false, 0x90, 0xFF, 1, []⟩
  | .pushq _ => ⟨true, 0xA00F, 0xFF0F, 2, [.rANotSentinel]⟩
  | .popq _ => ⟨true, 0xB00F, 0xFF0F, 2, [.rANotSentinel]⟩
  | .iotrap0 => ⟨false, 0xC0, 0xFF, 1, []⟩
  | .iotrap1 => ⟨false, 0xC1, 0xFF, 1, []⟩
  | .iotrap2 => ⟨false, 0xC2, 0xFF, 1, []⟩
  | .iotrap3 => ⟨false, 0xC3, 0xFF, 1, []⟩
  | .iotrap4 => ⟨false, 0xC4, 0xFF, 1, []⟩
  | .iotrap5 => ⟨false, 0xC5, 0xFF, 1, []⟩

/-- A byte string spells the row's instruction, as far as its first one or two bytes say: the masked bytes are the pattern, and
every constraint holds of the register byte (30_encoding.md R97). -/
def TableRow.matchesBytes (r : TableRow) (bs : List Byte) : Bool :=
  match r.wide, bs with
  | false, b0 :: _ => b0.setWidth 16 &&& r.mask == r.pattern
  | true, b0 :: b1 :: _ => (b0 ++ b1 : BitVec 16) &&& r.mask == r.pattern && r.constraints.all (·.holds b1)
  | _, _ => false

/-- The longest instruction, in bytes (30_encoding.md R81). -/
def maxLength : Nat := 10

/-- DESIGN CHOICE (assumption log 22): the ten bytes of an instruction whose `nbits` low bits are `w` in the table's numbering,
every other bit 0. The table's 16-bit rows (formats F2 and F10) number the opcode byte 15..8 and the register byte 7..0, as
30_encoding.md R97 says; its 8-bit rows number the opcode byte 7..0 and later bytes upward from there. -/
def tableBytes (nbits w : Nat) : List Byte :=
  match bytesLE maxLength (w % 2 ^ nbits) with
  | lo :: hi :: rest => if nbits = 16 ∨ nbits = 80 then hi :: lo :: rest else lo :: hi :: rest
  | short => short

/-- What the decoder reads from a word of spec/opcode_table.json. -/
def decodeTableWord (nbits w : Nat) : Option Instr :=
  match decode (tableBytes nbits w) with
  | .ok i => some i
  | .error _ => none

end Sys2Proof
end

