-- ==== Sys2Proof/Config.lean ====
section
/-! DEFINITION. What an implementation fixes (the parameters of 00_scope.md rule R5) and the free values, which the spec leaves
open at every use. The parameters are plain data that a state carries unchanged (assumption log 1 to 3); the free values are
constants with no body, so that nothing can be proved of one value of them (assumption log 7 and 8). -/

namespace Sys2Proof

/-- The kinds of trap an IOTRAP sub-function can stand for (46_iotrap.md R231). -/
inductive TrapKind where
  | charOut | charIn | decOut | decIn | strOut | flush | unrecognised
  deriving DecidableEq, Repr

/-- The launch parameters that are fixed during a run (00_scope.md R5). -/
structure Config where
  /-- `MEMSIZE`, the capacity of the memory image in bytes. -/
  memSize : Nat
  /-- `IOTRAP_KIND`: the kind of each sub-function 0 to 5. -/
  trapKinds : Vector TrapKind 6
  /-- `IOTRAP_SLOT`: the address an input trap writes to. -/
  trapSlot : Word
  deriving DecidableEq, Repr

/-- The constraint of 00_scope.md R5: 1 ≤ MEMSIZE ≤ 2^63. -/
abbrev Config.Valid (c : Config) : Prop := 1 ≤ c.memSize ∧ c.memSize ≤ 2 ^ 63

/-- PRESUMED (assumption log 1, 2), DESIGN CHOICE (assumption log 3): the parameters `State.reset` takes. MEMSIZE 4096 is the
default of 00_scope.md R5, the trap kinds are the default map of 46_iotrap.md R231, the slot is the test vectors' 0x800. -/
def Config.default : Config where
  memSize := 4096
  trapKinds := #v[.charOut, .charIn, .decOut, .decIn, .strOut, .flush]
  trapSlot := 0x800

/-- FREE VALUE (assumption log 7): the host's answer to the `n`-th input trap of a run, `some v` for `Ok(v)` and `none` for
`Fail` (46_iotrap.md R231, R233: "The value `v` is whatever the host supplies; the model assumes nothing of it"). DESIGN CHOICE
(log 7): the answer is a function of `n` alone, whatever the kind of the trap and the state. -/
opaque Config.hostAnswer : Nat → Option Word

/-- FREE VALUE (assumption log 8): the text the `n`-th output trap of a run appends to the line buffer (46_iotrap.md R232: "A
model treats what is appended as unspecified"). DESIGN CHOICE (log 8): the text is a function of `n` alone, whatever the kind of
the trap, the registers and memory; the spec leaves open whether output traps read registers or a fixed slot (R238). -/
opaque Config.outputText : Nat → List Byte

end Sys2Proof
end

