-- ==== Sys2Proof/Machine/State.lean ====
section
/-! DEFINITION. The state of the machine as plain data (10_state.md rules R20 to R42, 20_memory.md rule R50), the reasons a step
can stop, and the state after reset (70_reset_and_hazards.md R290). -/

namespace Sys2Proof.Machine

/-- The machine status (10_state.md R30). -/
inductive Status where
  | aok | halted | addressFault | instructionFault
  deriving DecidableEq, Repr

/-- The three condition flags ZF, SF, OF (10_state.md R28). -/
structure Flags where
  zf : Bool
  sf : Bool
  of : Bool
  deriving DecidableEq, Repr

/-- The memory image as the listed bytes, in increasing address order, none equal to what an unlisted byte reads as. -/
abbrev Memory := List Host.Cell

structure State where
  /-- The fifteen general registers, by number (10_state.md R20, R21). -/
  regs : Vector Word 15
  /-- The program counter (10_state.md R25). -/
  pc : Word
  /-- ZF, SF, OF (10_state.md R28). -/
  flags : Flags
  /-- The machine status (10_state.md R30). -/
  stat : Status
  /-- The memory image `M[0 .. MEMSIZE-1]` (20_memory.md R50). -/
  mem : Memory
  /-- The launch parameters (00_scope.md R5), unchanged by every step. -/
  config : Config
  /-- The IOTRAP output line buffer (10_state.md R36 a). -/
  lineBuffer : List Byte
  /-- Bytes emitted to the host's standard output so far; the model's own field (assumption log 9). -/
  stdout : List Byte
  /-- The position in the host's standard input, in input traps answered (10_state.md R36 b, assumption log 7). -/
  inputDraws : Nat
  /-- Output traps executed; the model's own field (assumption log 8). -/
  outputDraws : Nat
  deriving DecidableEq, Repr

/-- A step stops with a fault only from a state whose status is terminal: such a state has no step (60_exceptions.md R251,
assumption log 10). Raised by `step` alone. Safe: the spec gives these states no successor. -/
inductive Fault where
  /-- Raised by `step` when the status is HALTED: the run ended successfully. Safe. -/
  | noStepHalted
  /-- Raised by `step` when the status is ADDRESS_FAULT. Safe. -/
  | noStepAddressFault
  /-- Raised by `step` when the status is INSTRUCTION_FAULT. Safe. -/
  | noStepInstructionFault
  deriving DecidableEq, Repr

/-- A refusal says that the model gives an instruction no meaning. No arm of `exec` refuses: every instruction has its meaning. -/
inductive Refusal where
  /-- Reserved for an arm of `exec` whose instruction has no meaning yet; raised by none. Safe: a refused step has no successor. -/
  | notModelled (mnemonic : String)
  deriving DecidableEq, Repr

/-- The three outcomes of a step of this machine. -/
abbrev Outcome := Host.Outcome State Fault Refusal

/-- The state a launch starts from (10_state.md R41, 70_reset_and_hazards.md R290, R291): the parameters, the entry point and
the image come from outside, everything else is as R41 says. -/
def State.launch (config : Config) (entry : Word) (image : Memory) : State where
  regs := Vector.replicate 15 0
  pc := entry
  flags := ⟨false, false, false⟩
  stat := .aok
  mem := image
  config := config
  lineBuffer := []
  stdout := []
  inputDraws := 0
  outputDraws := 0

/-- The machine right after reset, with nothing loaded (assumption log 1 to 6): the default parameters, ENTRY = 0, no byte listed. -/
def State.reset : State := State.launch Config.default 0 []

end Sys2Proof.Machine
end

