-- ==== Sys2Proof/Machine/Ops.lean ====
section
/-! DEFINITION. The named operations over memory, registers, pc, flags and status, the two faults, the end-of-step check and the
fetch. Every read and write of a state element goes through one of these. -/

namespace Sys2Proof.Machine

/-! ## The memory image (20_memory.md) -/

/-- DESIGN CHOICE (assumption log 5): what a byte that nothing has written reads as. -/
def Memory.unlisted : Byte := 0

/-- `M[a]` (20_memory.md R50, R52). -/
def Memory.read : Memory → Nat → Byte
  | [], _ => Memory.unlisted
  | (k, b) :: rest, a => if a = k then b else Memory.read rest a

/-- `M[a] <- v`, keeping the canonical form (20_memory.md R50, R57). -/
def Memory.write : Memory → Nat → Byte → Memory
  | [], a, v => if v = Memory.unlisted then [] else [(a, v)]
  | (k, b) :: rest, a, v =>
    if a < k then (if v = Memory.unlisted then (k, b) :: rest else (a, v) :: (k, b) :: rest)
    else if a = k then (if v = Memory.unlisted then rest else (a, v) :: rest)
    else (k, b) :: Memory.write rest a v

/-- The canonical form: addresses strictly rising, no entry equal to what an unlisted address reads as. -/
abbrev Memory.wf (m : Memory) : Prop := m.Pairwise (fun c d => c.1 < d.1) ∧ ∀ c ∈ m, c.2 ≠ Memory.unlisted

/-- The `n` bytes at `a .. a+n-1`, in increasing address order. -/
def Memory.readBytes (m : Memory) (a : Nat) : Nat → List Byte
  | 0 => []
  | n + 1 => Memory.read m a :: Memory.readBytes m (a + 1) n

/-- Bytes stored one after another from `a` upward. -/
def Memory.writeBytes (m : Memory) (a : Nat) : List Byte → Memory
  | [] => m
  | b :: bs => Memory.writeBytes (Memory.write m a b) (a + 1) bs

/-- `MemRead(addr, 8)`: little endian (20_memory.md R55, R56). -/
def Memory.readWord (m : Memory) (a : Nat) : Word := wordOfBytes (m.readBytes a 8)

/-- `MemWrite(addr, n, v)` for `n` = 1 or 8: the `n` low bytes of `v`, little endian (20_memory.md R55, R57, R59). -/
def Memory.writeLE (m : Memory) (a n : Nat) (v : Word) : Memory := m.writeBytes a (bytesLE n v.toNat)

/-! ## Registers, pc, flags, status (10_state.md) -/

/-- The place of a register in the register file (10_state.md R21). -/
def regIndex : Reg → Fin 15
  | .rax => 0 | .rcx => 1 | .rdx => 2 | .rbx => 3 | .rsp => 4 | .rbp => 5 | .rsi => 6 | .rdi => 7
  | .r8 => 8 | .r9 => 9 | .r10 => 10 | .r11 => 11 | .r12 => 12 | .r13 => 13 | .r14 => 14

/-- `x[r]` (00_scope.md R9). -/
def State.reg (s : State) (r : Reg) : Word := s.regs.get (regIndex r)

/-- `x[r] <- v` (00_scope.md R9). No register is hard-wired (10_state.md R20). -/
def State.setReg (s : State) (r : Reg) (v : Word) : State := { s with regs := s.regs.set (regIndex r) v }

/-- `pc <- target`. -/
def State.setPc (s : State) (v : Word) : State := { s with pc := v }

/-- `ZF <- zf ; SF <- sf ; OF <- of`. -/
def State.setFlags (s : State) (f : Flags) : State := { s with flags := f }

/-- `stat <- v`. -/
def State.setStat (s : State) (v : Status) : State := { s with stat := v }

/-- The memory image replaced. -/
def State.setMem (s : State) (m : Memory) : State := { s with mem := m }

/-- `M[a]` in a state. -/
def State.byteAt (s : State) (a : Nat) : Byte := s.mem.read a

/-- `valP`, the next-instruction address of an instruction of `len` bytes (10_state.md R25, R26; 30_encoding.md R94). -/
def State.valP (s : State) (len : Nat) : Word := s.pc + BitVec.ofNat 64 len

/-- The number of a status, used by no rule (10_state.md R31, decision D26). -/
def Status.code : Status → Nat
  | .aok => 1 | .halted => 2 | .addressFault => 3 | .instructionFault => 4

/-! ## Faults (60_exceptions.md) -/

/-- `InBounds(a, n)`: `toNat(a) + n <= MEMSIZE` in the unbounded naturals (20_memory.md R53). -/
abbrev State.inBounds (s : State) (a : Word) (n : Nat) : Prop := a.toNat + n ≤ s.config.memSize

/-- `raise AddressFault` in stage 2 (00_scope.md R9, 60_exceptions.md R252): only the status changes, the pc stays (R258; R142,
assumption log 11, 13). -/
def State.raiseAddressFault (s : State) : State := s.setStat .addressFault

/-- The status a failed decode gives (60_exceptions.md R252, R253). -/
def decodeStatus : DecodeFault → Status
  | .startOutOfBounds => .addressFault
  | .spanOutOfBounds => .addressFault
  | .undefinedFamily => .instructionFault
  | .subFunctionOutOfRange => .instructionFault
  | .registerConstraint => .instructionFault

/-- The pc after a failed decode: 10 bytes on after an address fault, unchanged after an instruction fault (40_execution_model.md
R130, 60_exceptions.md R258, assumption log 11). -/
def State.pcAfterDecodeFault (s : State) : DecodeFault → Word
  | .startOutOfBounds => s.pc + 10
  | .spanOutOfBounds => s.pc + 10
  | .undefinedFamily => s.pc
  | .subFunctionOutOfRange => s.pc
  | .registerConstraint => s.pc

/-- TAKING A FAULT OF THE DECODER: the status becomes terminal, the pc as R258 says, nothing else is written (40_execution_model.md
R130; there is no handler and no saved state, 60_exceptions.md R256, R260; no return, R261). -/
def State.takeDecodeFault (s : State) (f : DecodeFault) : State :=
  (s.setPc (s.pcAfterDecodeFault f)).setStat (decodeStatus f)

/-- The end-of-step pc check, only while the status is AOK (60_exceptions.md R259, assumption log 12). -/
def State.endOfStep (s : State) : State :=
  if s.stat = .aok ∧ s.config.memSize ≤ s.pc.toNat then s.setStat .addressFault else s

/-- A data store of eight bytes, the first action of stage 2 of RMMOVQ, CALL and PUSHQ (40_execution_model.md R132, 20_memory.md
R54): out of bounds, AddressFault and nothing below; in bounds, the write and then `after`. -/
def State.storeThen (s : State) (a v : Word) (after : State → State) : State :=
  if s.inBounds a 8 then after (s.setMem (s.mem.writeLE a.toNat 8 v)) else s.raiseAddressFault

/-- A data load of eight bytes, the first action of stage 2 of MRMOVQ, RET and POPQ (40_execution_model.md R132, 20_memory.md
R54): out of bounds, AddressFault and nothing below; in bounds, `after` with the value read. -/
def State.loadThen (s : State) (a : Word) (after : Word → State → State) : State :=
  if s.inBounds a 8 then after (s.mem.readWord a.toNat) s else s.raiseAddressFault

/-! ## Fetch (30_encoding.md section 2) -/

/-- The bytes the decoder can read: those of `pc .. pc+9` that are in memory (10_state.md R38, 20_memory.md R54). -/
def State.fetchWindow (s : State) : List Byte :=
  s.mem.readBytes s.pc.toNat (min maxLength (s.config.memSize - s.pc.toNat))

/-- `Decode(M, pc)`: read afresh at every step (20_memory.md R64). -/
def State.fetch (s : State) : Except DecodeFault Instr := decode s.fetchWindow

/-- Bytes placed at the pc, as many as memory holds from there. -/
def State.placeAtPc (s : State) (bs : List Byte) : State :=
  s.setMem (s.mem.writeBytes s.pc.toNat (bs.take (s.config.memSize - s.pc.toNat)))

/-- The byte list of an image, as the loader hands it over from address `a` upward (70_reset_and_hazards.md R291). -/
def imageOf (a : Nat) (bs : List Byte) : Memory := Memory.writeBytes [] a bs

end Sys2Proof.Machine
end

