-- ==== Sys2Proof/Machine/Flags.lean ====
section
/-! DEFINITION. The condition evaluator `Cond` and the arithmetic unit `ALU` (40_execution_model.md rules R136 to R140). -/

namespace Sys2Proof.Machine

/-- `Cond(ifun)` (40_execution_model.md R136). -/
def condHolds (f : Flags) : Cond → Bool
  | .always => true
  | .le => f.zf || (f.sf ^^ f.of)
  | .l => f.sf ^^ f.of
  | .e => f.zf
  | .ne => !f.zf
  | .ge => f.sf == f.of
  | .g => !f.zf && (f.sf == f.of)

/-- The result `r` of `ALU(ifun, a, b)`: second OP first, modulo 2^64 (40_execution_model.md R138). -/
def aluResult (op : AluOp) (a b : Word) : Word :=
  match op with
  | .add => b + a
  | .sub => b - a
  | .and => b &&& a
  | .xor => b ^^^ a

/-- The overflow output of `ALU(ifun, a, b)` (40_execution_model.md R138). -/
def aluOverflow (op : AluOp) (a b : Word) : Bool :=
  match op with
  | .add => (a.sign == b.sign) && ((b + a).sign != a.sign)
  | .sub => (a.sign != b.sign) && ((b - a).sign != b.sign)
  | .and => false
  | .xor => false

/-- The three flag values of `ALU(ifun, a, b)` (40_execution_model.md R138). -/
def aluFlags (op : AluOp) (a b : Word) : Flags where
  zf := aluResult op a b == 0
  sf := (aluResult op a b).sign
  of := aluOverflow op a b

/-- The flags HALT leaves (41_halt_nop.md R160). -/
def clearedFlags : Flags := ⟨false, false, false⟩

end Sys2Proof.Machine
end

