-- ==== Sys2Proof/Machine/Arith.lean ====
section
/-! DEFINITION. The arithmetic family ADDQ, SUBQ, ANDQ, XORQ (43_arith.md). -/

namespace Sys2Proof.Machine

/-- The common rule of the arithmetic instructions (R190): all three flags, then the destination `rB`, then the pc. -/
def State.arith (s : State) (op : AluOp) (rA rB : Reg) : State :=
  ((s.setFlags (aluFlags op (s.reg rA) (s.reg rB))).setReg rB (aluResult op (s.reg rA) (s.reg rB))).setPc (s.valP 2)

/-- `addq rA, rB` (R191). -/
def execAddq (rA rB : Reg) (s : State) : Outcome := .next (s.arith .add rA rB)

/-- `subq rA, rB` (R192). -/
def execSubq (rA rB : Reg) (s : State) : Outcome := .next (s.arith .sub rA rB)

/-- `andq rA, rB` (R193). -/
def execAndq (rA rB : Reg) (s : State) : Outcome := .next (s.arith .and rA rB)

/-- `xorq rA, rB` (R194). -/
def execXorq (rA rB : Reg) (s : State) : Outcome := .next (s.arith .xor rA rB)

end Sys2Proof.Machine
end

