-- ==== Sys2Proof/Machine/Operands.lean ====
section
/-! DEFINITION. The operand reads and the address arithmetic of stage 1 (40_execution_model.md rules R133 to R135, R141). Every
read is of the state before the step (00_scope.md R10). -/

namespace Sys2Proof.Machine

/-- `Base(rB)`: the base register's value, 0 when it is absent (40_execution_model.md R134, assumption log 17). -/
def State.base (s : State) : Option Reg → Word
  | some r => s.reg r
  | none => 0

/-- The effective address of RMMOVQ and MRMOVQ, `Base(rB) + valC` modulo 2^64 (40_execution_model.md R133, R141). -/
def State.effectiveAddress (s : State) (rB : Option Reg) (disp : Word) : Word := s.base rB + disp

/-- The slot CALL and PUSHQ store to, `x[RSP] - 8` modulo 2^64 (40_execution_model.md R133, R141). -/
def State.pushSlot (s : State) : Word := s.reg .rsp - 8

/-- The slot RET and POPQ load from, `x[RSP]` (40_execution_model.md R133). -/
def State.popSlot (s : State) : Word := s.reg .rsp

/-- The stack pointer after a pop, `x[RSP] + 8` modulo 2^64 (40_execution_model.md R133, R141). -/
def State.popped (s : State) : Word := s.reg .rsp + 8

end Sys2Proof.Machine
end

