-- ==== Sys2Proof/Machine/Control.lean ====
section
/-! DEFINITION. The jumps, CALL and RET (44_control.md). -/

namespace Sys2Proof.Machine

/-- The common rule of the jumps (R209). -/
def State.jump (s : State) (c : Cond) (dest : Word) : State :=
  s.setPc (if condHolds s.flags c then dest else s.valP 9)

/-- `jmp dest` (R200). -/
def execJmp (dest : Word) (s : State) : Outcome := .next (s.jump .always dest)

/-- `jle dest` (R201). -/
def execJle (dest : Word) (s : State) : Outcome := .next (s.jump .le dest)

/-- `jl dest` (R202). -/
def execJl (dest : Word) (s : State) : Outcome := .next (s.jump .l dest)

/-- `je dest` (R203). -/
def execJe (dest : Word) (s : State) : Outcome := .next (s.jump .e dest)

/-- `jne dest` (R204). -/
def execJne (dest : Word) (s : State) : Outcome := .next (s.jump .ne dest)

/-- `jge dest` (R205). -/
def execJge (dest : Word) (s : State) : Outcome := .next (s.jump .ge dest)

/-- `jg dest` (R206). -/
def execJg (dest : Word) (s : State) : Outcome := .next (s.jump .g dest)

/-- `call dest` (R207): the return address is pushed, then RSP, then the pc. -/
def execCall (dest : Word) (s : State) : Outcome :=
  .next (s.storeThen s.pushSlot (s.valP 9) (fun t => (t.setReg .rsp s.pushSlot).setPc dest))

/-- `ret` (R208). -/
def execRet (s : State) : Outcome :=
  .next (s.loadThen s.popSlot (fun v t => (t.setReg .rsp s.popped).setPc v))

end Sys2Proof.Machine
end

