-- ==== Sys2Proof/Machine/HaltNop.lean ====
section
/-! DEFINITION. HALT and NOP (41_halt_nop.md). -/

namespace Sys2Proof.Machine

/-- `halt` (R160): status HALTED, flags cleared, the pc past the halt. -/
def execHalt (s : State) : Outcome :=
  .next (((s.setStat .halted).setFlags clearedFlags).setPc (s.valP 1))

/-- `nop` (R161). -/
def execNop (s : State) : Outcome :=
  .next (s.setPc (s.valP 1))

end Sys2Proof.Machine
end

