-- ==== Sys2Proof/Machine/IoTrap.lean ====
section
/-! DEFINITION. IOTRAP (46_iotrap.md): the architectural effect on pc, status and memory, and the effect on the line buffer and
the host's streams as far as the spec states it. What the host answers and prints is a free value. -/

namespace Sys2Proof.Machine

/-- `IOTRAP_KIND(n)` (R231). -/
def State.trapKind (s : State) (n : Fin 6) : TrapKind := s.config.trapKinds.get n

/-- An output trap (R232): unspecified text goes to the line buffer, the pc advances. That the text looks at neither the registers
nor memory nor the kind of the trap is a DESIGN CHOICE (assumption log 8; left open by R238). -/
def State.outputTrap (s : State) : State :=
  { s with lineBuffer := s.lineBuffer ++ Config.outputText s.outputDraws, outputDraws := s.outputDraws + 1 }.setPc (s.valP 1)

/-- The flush trap (R237): the line buffer goes to standard output, in order, and becomes empty (assumption log 9). -/
def State.flushTrap (s : State) : State :=
  { s with stdout := s.stdout ++ s.lineBuffer, lineBuffer := [] }.setPc (s.valP 1)

/-- One answer is taken from the host (R231, assumption log 7). -/
def State.drawInput (s : State) : State := { s with inputDraws := s.inputDraws + 1 }

/-- An input trap once the host has answered (R233): `Ok(v)` writes the `n` low bytes of `v` at `IOTRAP_SLOT`, or raises
AddressFault when the slot is out of bounds (A8); `Fail` halts and leaves memory as it was. -/
def State.inputAnswered (s : State) (n : Nat) : Option Word → State
  | some v =>
    if s.inBounds s.config.trapSlot n then (s.setMem (s.mem.writeLE s.config.trapSlot.toNat n v)).setPc (s.valP 1)
    else s.raiseAddressFault
  | none => (s.setStat .halted).setPc (s.valP 1)

/-- An input trap of `n` bytes (R233, assumption log 7, 25). -/
def State.inputTrap (s : State) (n : Nat) : State := s.drawInput.inputAnswered n (Config.hostAnswer s.inputDraws)

/-- An unrecognised trap (R238): HALTED, the pc unchanged (assumption log 21). -/
def State.unrecognisedTrap (s : State) : State := s.setStat .halted

/-- The effect of a trap of a kind (R230 to R238). -/
def State.ioTrap (s : State) : TrapKind → State
  | .charOut => s.outputTrap
  | .charIn => s.inputTrap 1
  | .decOut => s.outputTrap
  | .decIn => s.inputTrap 8
  | .strOut => s.outputTrap
  | .flush => s.flushTrap
  | .unrecognised => s.unrecognisedTrap

/-- `iotrap 0` (R232). -/
def execIotrap0 (s : State) : Outcome := .next (s.ioTrap (s.trapKind 0))

/-- `iotrap 1` (R233). -/
def execIotrap1 (s : State) : Outcome := .next (s.ioTrap (s.trapKind 1))

/-- `iotrap 2` (R234). -/
def execIotrap2 (s : State) : Outcome := .next (s.ioTrap (s.trapKind 2))

/-- `iotrap 3` (R235). -/
def execIotrap3 (s : State) : Outcome := .next (s.ioTrap (s.trapKind 3))

/-- `iotrap 4` (R236). -/
def execIotrap4 (s : State) : Outcome := .next (s.ioTrap (s.trapKind 4))

/-- `iotrap 5` (R237). -/
def execIotrap5 (s : State) : Outcome := .next (s.ioTrap (s.trapKind 5))

end Sys2Proof.Machine
end

