-- ==== Sys2Proof/Machine/Moves.lean ====
section
/-! DEFINITION. The conditional moves, IRMOVQ, RMMOVQ and MRMOVQ (42_moves.md). -/

namespace Sys2Proof.Machine

/-- The common rule of the conditional moves (R170). -/
def State.condMove (s : State) (c : Cond) (rA rB : Reg) : State :=
  (if condHolds s.flags c then s.setReg rB (s.reg rA) else s).setPc (s.valP 2)

/-- `rrmovq rA, rB` (R171). -/
def execRrmovq (rA rB : Reg) (s : State) : Outcome := .next (s.condMove .always rA rB)

/-- `cmovle rA, rB` (R172). -/
def execCmovle (rA rB : Reg) (s : State) : Outcome := .next (s.condMove .le rA rB)

/-- `cmovl rA, rB` (R173). -/
def execCmovl (rA rB : Reg) (s : State) : Outcome := .next (s.condMove .l rA rB)

/-- `cmove rA, rB` (R174). -/
def execCmove (rA rB : Reg) (s : State) : Outcome := .next (s.condMove .e rA rB)

/-- `cmovne rA, rB` (R175). -/
def execCmovne (rA rB : Reg) (s : State) : Outcome := .next (s.condMove .ne rA rB)

/-- `cmovge rA, rB` (R176). -/
def execCmovge (rA rB : Reg) (s : State) : Outcome := .next (s.condMove .ge rA rB)

/-- `cmovg rA, rB` (R177). -/
def execCmovg (rA rB : Reg) (s : State) : Outcome := .next (s.condMove .g rA rB)

/-- `irmovq $imm, rB` (R178). -/
def execIrmovq (imm : Word) (rB : Reg) (s : State) : Outcome :=
  .next ((s.setReg rB imm).setPc (s.valP 10))

/-- `rmmovq rA, disp(rB)` (R179). -/
def execRmmovq (rA : Reg) (rB : Option Reg) (disp : Word) (s : State) : Outcome :=
  .next (s.storeThen (s.effectiveAddress rB disp) (s.reg rA) (fun t => t.setPc (s.valP 10)))

/-- `mrmovq disp(rB), rA` (R180). -/
def execMrmovq (rA : Reg) (rB : Option Reg) (disp : Word) (s : State) : Outcome :=
  .next (s.loadThen (s.effectiveAddress rB disp) (fun v t => (t.setReg rA v).setPc (s.valP 10)))

end Sys2Proof.Machine
end

