-- ==== Sys2Proof/Machine/Stack.lean ====
section
/-! DEFINITION. PUSHQ and POPQ (45_stack.md). -/

namespace Sys2Proof.Machine

/-- `pushq rA` (R220): the value stored is the register's before the step, the old stack pointer for `pushq %rsp`. -/
def execPushq (rA : Reg) (s : State) : Outcome :=
  .next (s.storeThen s.pushSlot (s.reg rA) (fun t => (t.setReg .rsp s.pushSlot).setPc (s.valP 2)))

/-- `popq rA` (R221): RSP is written first, so that `popq %rsp` leaves the value read. -/
def execPopq (rA : Reg) (s : State) : Outcome :=
  .next (s.loadThen s.popSlot (fun v t => ((t.setReg .rsp s.popped).setReg rA v).setPc (s.valP 2)))

end Sys2Proof.Machine
end

