-- ==== Sys2Proof/Machine/Step.lean ====
section
/-! DEFINITION. One step of the machine (40_execution_model.md rule R130), and the placing of an instruction where it is fetched. -/

namespace Sys2Proof.Machine

/-- The step from a state whose status is AOK: decode, execute, end-of-step check (40_execution_model.md R130). -/
def stepAok (s : State) : Outcome :=
  match s.fetch with
  | .error f => .next (s.takeDecodeFault f).endOfStep
  | .ok i =>
    match exec i s with
    | .next t => .next t.endOfStep
    | .fault r => .fault r
    | .refused r => .refused r

/-- One step. A state with a terminal status has none (60_exceptions.md R251, assumption log 10). -/
def step (s : State) : Host.Outcome State Fault Refusal :=
  match s.stat with
  | .aok => stepAok s
  | .halted => .fault .noStepHalted
  | .addressFault => .fault .noStepAddressFault
  | .instructionFault => .fault .noStepInstructionFault

/-- `s` with the instruction of a word of spec/opcode_table.json stored at the pc, where the next step fetches it (assumption log
22, 23). -/
def State.withFetchWord (s : State) (nbits w : Nat) : State := s.placeAtPc (tableBytes nbits w)

end Sys2Proof.Machine
end

