-- ==== Sys2Proof/Safety.lean ====
section
/-! DEFINITION. What counts as a safe run, and the terms the claims are stated in: the invariant of the machine, the end of a
run, what an instruction may write, and "unchanged" for each kind of state. -/

namespace Sys2Proof.Machine

/-! ## Runs -/

/-- A run has ended: the status is terminal (00_scope.md R14, 10_state.md R30). -/
def State.Ended (s : State) : Prop := s.stat ≠ .aok

/-- The only end that counts as success (60_exceptions.md R251). -/
def State.EndedWell (s : State) : Prop := s.stat = .halted

/-- The invariant every step keeps: the parameters are legal (00_scope.md R5); the memory image is in canonical form and lists
no byte outside `0 .. MEMSIZE-1` (20_memory.md R50, R54); while the status is AOK the pc is in memory (60_exceptions.md R259). -/
def State.Inv (s : State) : Prop :=
  s.config.Valid ∧ s.mem.wf ∧ (∀ c ∈ s.mem, c.1 < s.config.memSize) ∧
    (s.stat = .aok → s.pc.toNat < s.config.memSize)

/-! ## Unchanged -/

/-- Every byte of memory reads as before. -/
def SameBytes (s t : State) : Prop := ∀ a, t.byteAt a = s.byteAt a

/-- Every byte of memory outside `lo .. lo+n-1` reads as before. -/
def SameBytesOutside (lo n : Nat) (s t : State) : Prop := ∀ a, a < lo ∨ lo + n ≤ a → t.byteAt a = s.byteAt a

/-- Every general register not listed reads as before. -/
def SameRegsExcept (l : List Reg) (s t : State) : Prop := ∀ r, r ∉ l → t.reg r = s.reg r

/-- The launch parameters, the line buffer and the host's streams are as before. -/
def SameHost (s t : State) : Prop :=
  t.config = s.config ∧ t.lineBuffer = s.lineBuffer ∧ t.stdout = s.stdout ∧ t.inputDraws = s.inputDraws ∧
    t.outputDraws = s.outputDraws

/-! ## What an instruction may read and write -/

/-- The address of the instruction's 8-byte data access, none if it has none (20_memory.md R51, R59). -/
def dataAddress (i : Instr) (s : State) : Option Word :=
  match i with
  | .rmmovq _ rB d => some (s.effectiveAddress rB d)
  | .mrmovq _ rB d => some (s.effectiveAddress rB d)
  | .call _ => some s.pushSlot
  | .pushq _ => some s.pushSlot
  | .ret => some s.popSlot
  | .popq _ => some s.popSlot
  | .halt | .nop | .rrmovq _ _ | .cmovle _ _ | .cmovl _ _ | .cmove _ _ | .cmovne _ _ | .cmovge _ _ | .cmovg _ _
  | .irmovq _ _ | .addq _ _ | .subq _ _ | .andq _ _ | .xorq _ _
  | .jmp _ | .jle _ | .jl _ | .je _ | .jne _ | .jge _ | .jg _
  | .iotrap0 | .iotrap1 | .iotrap2 | .iotrap3 | .iotrap4 | .iotrap5 => none

/-- The number of an IOTRAP instruction, none for the others (30_encoding.md R95). -/
def trapNumber : Instr → Option (Fin 6)
  | .iotrap0 => some 0 | .iotrap1 => some 1 | .iotrap2 => some 2
  | .iotrap3 => some 3 | .iotrap4 => some 4 | .iotrap5 => some 5
  | .halt | .nop | .rrmovq _ _ | .cmovle _ _ | .cmovl _ _ | .cmove _ _ | .cmovne _ _ | .cmovge _ _ | .cmovg _ _
  | .irmovq _ _ | .rmmovq _ _ _ | .mrmovq _ _ _ | .addq _ _ | .subq _ _ | .andq _ _ | .xorq _ _
  | .jmp _ | .jle _ | .jl _ | .je _ | .jne _ | .jge _ | .jg _ | .call _ | .ret | .pushq _ | .popq _ => none

/-- How many bytes an input trap of a kind writes; 0 for a trap that is no input trap (46_iotrap.md R233). -/
def inputBytes : TrapKind → Nat
  | .charIn => 1 | .decIn => 8
  | .charOut | .decOut | .strOut | .flush | .unrecognised => 0

/-- Where the instruction may store and how many bytes, none if it stores nothing (20_memory.md R51). -/
def storeSpan (i : Instr) (s : State) : Option (Nat × Nat) :=
  match i with
  | .rmmovq _ rB d => some ((s.effectiveAddress rB d).toNat, 8)
  | .call _ => some (s.pushSlot.toNat, 8)
  | .pushq _ => some (s.pushSlot.toNat, 8)
  | i => match trapNumber i with
    | none => none
    | some n => if inputBytes (s.trapKind n) = 0 then none else some (s.config.trapSlot.toNat, inputBytes (s.trapKind n))

/-- The general registers the instruction may write (10_state.md R23). -/
def writtenRegs : Instr → List Reg
  | .rrmovq _ b => [b]
  | .cmovle _ b => [b]
  | .cmovl _ b => [b]
  | .cmove _ b => [b]
  | .cmovne _ b => [b]
  | .cmovge _ b => [b]
  | .cmovg _ b => [b]
  | .irmovq _ b => [b]
  | .mrmovq a _ _ => [a]
  | .addq _ b => [b]
  | .subq _ b => [b]
  | .andq _ b => [b]
  | .xorq _ b => [b]
  | .call _ => [.rsp]
  | .ret => [.rsp]
  | .pushq _ => [.rsp]
  | .popq a => [.rsp, a]
  | .halt | .nop | .rmmovq _ _ _ | .jmp _ | .jle _ | .jl _ | .je _ | .jne _ | .jge _ | .jg _
  | .iotrap0 | .iotrap1 | .iotrap2 | .iotrap3 | .iotrap4 | .iotrap5 => []

/-- The instruction is one of the five that write the flags (10_state.md R29). -/
def writesFlags : Instr → Bool
  | .halt | .addq _ _ | .subq _ _ | .andq _ _ | .xorq _ _ => true
  | .nop | .rrmovq _ _ | .cmovle _ _ | .cmovl _ _ | .cmove _ _ | .cmovne _ _ | .cmovge _ _ | .cmovg _ _
  | .irmovq _ _ | .rmmovq _ _ _ | .mrmovq _ _ _ | .jmp _ | .jle _ | .jl _ | .je _ | .jne _ | .jge _ | .jg _
  | .call _ | .ret | .pushq _ | .popq _ | .iotrap0 | .iotrap1 | .iotrap2 | .iotrap3 | .iotrap4 | .iotrap5 => false

/-- The instruction is one of the twelve that read the flags (10_state.md R29). -/
def readsFlags : Instr → Bool
  | .cmovle _ _ | .cmovl _ _ | .cmove _ _ | .cmovne _ _ | .cmovge _ _ | .cmovg _ _
  | .jle _ | .jl _ | .je _ | .jne _ | .jge _ | .jg _ => true
  | .halt | .nop | .rrmovq _ _ | .irmovq _ _ | .rmmovq _ _ _ | .mrmovq _ _ _ | .addq _ _ | .subq _ _ | .andq _ _ | .xorq _ _
  | .jmp _ | .call _ | .ret | .pushq _ | .popq _ | .iotrap0 | .iotrap1 | .iotrap2 | .iotrap3 | .iotrap4 | .iotrap5 => false

/-- The pc an instruction that neither faults nor meets an unrecognised trap leaves (10_state.md R26). -/
def pcAfter (i : Instr) (s : State) : Word :=
  match i with
  | .halt | .nop | .iotrap0 | .iotrap1 | .iotrap2 | .iotrap3 | .iotrap4 | .iotrap5 => s.pc + 1
  | .rrmovq _ _ | .cmovle _ _ | .cmovl _ _ | .cmove _ _ | .cmovne _ _ | .cmovge _ _ | .cmovg _ _
  | .addq _ _ | .subq _ _ | .andq _ _ | .xorq _ _ | .pushq _ | .popq _ => s.pc + 2
  | .irmovq _ _ | .rmmovq _ _ _ | .mrmovq _ _ _ => s.pc + 10
  | .jmp d => d
  | .jle d => if condHolds s.flags .le then d else s.pc + 9
  | .jl d => if condHolds s.flags .l then d else s.pc + 9
  | .je d => if condHolds s.flags .e then d else s.pc + 9
  | .jne d => if condHolds s.flags .ne then d else s.pc + 9
  | .jge d => if condHolds s.flags .ge then d else s.pc + 9
  | .jg d => if condHolds s.flags .g then d else s.pc + 9
  | .call d => d
  | .ret => s.mem.readWord s.popSlot.toNat

/-! ## The bytes at the pc, as the spec's tables read them -/

/-- The length of a family, by its code; 0 for the codes that have none (30_encoding.md R96). -/
def lengthOfCode (icode : BitVec 4) : Nat :=
  match icode.toNat with
  | 0x0 => 1 | 0x1 => 1 | 0x9 => 1 | 0xC => 1
  | 0x2 => 2 | 0x6 => 2 | 0xA => 2 | 0xB => 2
  | 0x7 => 9 | 0x8 => 9
  | 0x3 => 10 | 0x4 => 10 | 0x5 => 10
  | _ => 0

/-- The fields the first two bytes at an address spell (30_encoding.md R80, R83), with no constant. -/
def State.fieldsAt (s : State) (a : Nat) : Fields where
  icode := hiNibble (s.byteAt a)
  ifun := loNibble (s.byteAt a)
  rA := hiNibble (s.byteAt (a + 1))
  rB := loNibble (s.byteAt (a + 1))
  valC := 0

/-- The 33 legal opcode bytes (30_encoding.md R95, R99). -/
def legalOpcodeBytes : List Byte :=
  [0x00, 0x10, 0x20, 0x21, 0x22, 0x23, 0x24, 0x25, 0x26, 0x30, 0x40, 0x50, 0x60, 0x61, 0x62, 0x63] ++
    [0x70, 0x71, 0x72, 0x73, 0x74, 0x75, 0x76, 0x80, 0x90, 0xA0, 0xB0, 0xC0, 0xC1, 0xC2, 0xC3, 0xC4, 0xC5]

end Sys2Proof.Machine
end

