-- ==== Sys2Proof/Certificates/Slice0/Obligations.lean ====
section
/-! DEFINITION. The statements for the provers, from the spec's rules. Statements about exec give the next state for every state
that meets their hypotheses, so each is also its instructions' completion statement; "unchanged" is written with the predicates of
Safety.lean. Numbers of families, registers and sub-functions are the spec's decisions D1 to D3. -/

open Sys2Proof Sys2Proof.Machine

/-! ## Encoding and decoding -/

/-- One word of each family, written out from the format tables and the opcode map (30_encoding.md R83, R95). The numbers of
families, registers and sub-functions are decisions D1 to D3 (assumption log 14), the roles of the register nibbles where the
source is silent decision D10 (log 18). -/
def Obligations.WrittenWordsDecodeAsTheirInstructions : Prop :=
  decode [0x00] = .ok .halt ∧ decode [0x10] = .ok .nop ∧ decode [0x90] = .ok .ret ∧ decode [0xC5] = .ok .iotrap5 ∧
  decode [0x26, 0x13] = .ok (.cmovg .rcx .rbx) ∧ decode [0x61, 0x21] = .ok (.subq .rdx .rcx) ∧
  decode [0xA0, 0xEF] = .ok (.pushq .r14) ∧ decode [0xB0, 0x3F] = .ok (.popq .rbx) ∧
  decode [0x76, 0x88, 0x77, 0x66, 0x55, 0x44, 0x33, 0x22, 0x11] = .ok (.jg 0x1122334455667788) ∧
  decode [0x80, 0x00, 0x00, 0x00, 0x00, 0x00, 0x00, 0x00, 0x80] = .ok (.call 0x8000000000000000) ∧
  decode [0x30, 0xF8, 0xEF, 0xCD, 0xAB, 0x89, 0x67, 0x45, 0x23, 0x01] = .ok (.irmovq 0x0123456789ABCDEF .r8) ∧
  decode [0x40, 0xE3, 0xF8, 0xFF, 0xFF, 0xFF, 0xFF, 0xFF, 0xFF, 0xFF] = .ok (.rmmovq .r14 (some .rbx) (-8)) ∧
  decode [0x50, 0x2F, 0x00, 0x02, 0x00, 0x00, 0x00, 0x00, 0x00, 0x00] = .ok (.mrmovq .rdx none 0x200)

/-- Decoding the encoding of an instruction, whatever bytes follow, gives the instruction, for every operand. The numbers are
decisions D1 to D3 (assumption log 14); which forms an instruction has, and so which fields are well-formed, is decisions D4 and
D8 too (log 15 and 16), and which field holds which operand decision D10 (log 18). -/
def Obligations.DecodeOfEncodeIsTheInstruction : Prop :=
  ∀ (i : Instr) (rest : List Byte), i.wellFormed = true ∧ decode (encode i ++ rest) = .ok i

/-- Where bytes decode to an instruction, they begin with its encoding: each encoding has one meaning and each instruction one
encoding, so no bit of an encoding is ignored. The numbers are decisions D1 to D3 (assumption log 14); that no non-zero
sub-function and no sentinel is ignored where the source gives no constraint is decisions D4 and D8 (log 15 and 16), that no byte
is missing decision D6 (log 19). -/
def Obligations.DecodedBytesAreTheEncoding : Prop :=
  ∀ (bs : List Byte) (i : Instr), decode bs = .ok i → bs.take i.length = encode i

/-- The opcode check looks at the first byte alone and refuses exactly the 223 bytes that are not legal opcodes: an undefined
family (0xD to 0xF, for 0xD by decision D5) under one name, a sub-function out of range (five maxima by decision D4) under another
(assumption log 15, the spec's U1 and U2); the numbers are decisions D1 and D3 (log 14). -/
def Obligations.IllegalOpcodeBytesAreRefused : Prop :=
  ∀ (b0 : Byte) (rest : List Byte),
    (0xC < (hiNibble b0).toNat → decode (b0 :: rest) = .error .undefinedFamily) ∧
    ((hiNibble b0).toNat ≤ 0xC → maxIfun (hiNibble b0) < (loNibble b0).toNat →
      decode (b0 :: rest) = .error .subFunctionOutOfRange) ∧
    (b0 ∉ legalOpcodeBytes ↔
      decode (b0 :: rest) = .error .undefinedFamily ∨ decode (b0 :: rest) = .error .subFunctionOutOfRange)

/-- A legal opcode byte whose family is longer than the bytes left is refused as a span out of bounds, whatever the rest, and with
enough bytes it is never refused so. That every family's span is checked is decision D6; that the span is named also where a
register byte is there and illegal is a choice, decision D7 (assumption log 19, the spec's U15: either fault is possible). Which
bytes are legal is decisions D4 and D5 (log 15, U1 and U2), the families' numbers D1 (log 14). -/
def Obligations.SpanOverrunIsRefused : Prop :=
  ∀ (b0 : Byte) (rest : List Byte), b0 ∈ legalOpcodeBytes →
    (decode (b0 :: rest) = .error .spanOutOfBounds ↔ rest.length + 1 < lengthOfCode (hiNibble b0))

/-- With a legal opcode byte and the whole span present, the decode is refused exactly when the register byte breaks the row of
its family (30_encoding.md R93), and then as a register constraint; otherwise it succeeds. Four rows are decision D8 (assumption
log 16, the spec's U3). Which bytes are legal is decisions D4 and D5 (log 15, U1 and U2), the numbers of the families and
registers D1 and D2 (log 14). -/
def Obligations.RegisterByteIsCheckedByFamily : Prop :=
  ∀ (b0 b1 : Byte) (rest : List Byte), b0 ∈ legalOpcodeBytes → lengthOfCode (hiNibble b0) ≤ rest.length + 2 →
    let f : Fields := ⟨hiNibble b0, loNibble b0, hiNibble b1, loNibble b1, 0⟩
    (f.registersLegal = false → decode (b0 :: b1 :: rest) = .error .registerConstraint) ∧
    (f.registersLegal = true → ∃ i, decode (b0 :: b1 :: rest) = .ok i)

/-- The start-address check: a fetch at or past the end of memory fails with ADDRESS_FAULT whatever memory holds. -/
def Obligations.FetchStartOutOfBoundsIsAddressFault : Prop :=
  ∀ (s : State) (m : Memory), s.config.memSize ≤ s.pc.toNat →
    ∃ f, (s.setMem m).fetch = .error f ∧ f = .startOutOfBounds ∧ decodeStatus f = .addressFault

/-- When a decode succeeded, the bytes at the pc are the instruction's encoding, they are all in memory, and the next-instruction
address does not wrap (30_encoding.md R94). Every clause rests on choices. That the bytes are the encoding is
`DecodedBytesAreTheEncoding`'s claim at the pc: the numbers are decisions D1 to D3 (assumption log 14), and that no non-zero
sub-function and no sentinel executes where the source gives no constraint is D4 and D8 (log 15 and 16, the spec's U2 and U3: a
lax decoder that executes 0x31 as irmovq would falsify it). The other clauses rest on the span check of R88, which for the
two-byte families, irmovq and mrmovq is decision D6 (log 19, U13). When a decode succeeds is `RegisterByteIsCheckedByFamily`'s to
say. -/
def Obligations.SuccessfulDecodeStaysInMemory : Prop :=
  ∀ (s : State) (i : Instr), s.config.Valid → s.fetch = .ok i →
    s.mem.readBytes s.pc.toNat i.length = encode i ∧ s.inBounds s.pc i.length ∧
    (s.valP i.length).toNat = s.pc.toNat + i.length ∧ (s.valP i.length).toNat ≤ s.config.memSize

/-- What the decoder reads: two states with the same pc and MEMSIZE whose bytes agree over the decoded span decode alike, whatever
their registers, flags, status and other bytes (30_encoding.md R103). A refusal on the opcode byte or the span depends on the
first byte only, one on the register byte on the first two: this is R87 and R88, with the span check of decision D6 and the order
of decision D7 (assumption log 19); which decodes are refused is decisions D4, D5 and D8 too (log 15 and 16). The constant is not
checked: any destination or displacement decodes. -/
def Obligations.DecodeReadsOnlyItsSpan : Prop :=
  (∀ (s t : State), t.pc = s.pc → t.config.memSize = s.config.memSize →
    (∀ i, s.fetch = .ok i → (∀ k, k < i.length → t.byteAt (s.pc.toNat + k) = s.byteAt (s.pc.toNat + k)) →
      t.fetch = .ok i) ∧
    (∀ f, s.fetch = .error f → (f ≠ .startOutOfBounds → t.byteAt s.pc.toNat = s.byteAt s.pc.toNat) →
      (f = .registerConstraint → t.byteAt (s.pc.toNat + 1) = s.byteAt (s.pc.toNat + 1)) → t.fetch = .error f)) ∧
  (∀ (c : Cond) (d : Word), decode (encode (jumpInstr c d)) = .ok (jumpInstr c d)) ∧
  (∀ d : Word, decode (encode (.call d)) = .ok (.call d)) ∧
  (∀ (r : Reg) (b : Option Reg) (d : Word), decode (encode (.rmmovq r b d)) = .ok (.rmmovq r b d) ∧
    decode (encode (.mrmovq r b d)) = .ok (.mrmovq r b d))

/-! ## The step -/

/-- A step runs the decoded instruction: exec of it, and then the end-of-step pc check. That the check runs then, after every step
that leaves the status AOK and no other, is decision D17 (assumption log 12). -/
def Obligations.StepRunsTheFetchedInstruction : Prop :=
  ∀ (s : State) (i : Instr), s.stat = .aok → s.fetch = .ok i →
    step s = match exec i s with
      | .next t => .next (if t.stat = .aok ∧ t.config.memSize ≤ t.pc.toNat then { t with stat := .addressFault } else t)
      | .fault r => .fault r
      | .refused r => .refused r

/-- The same from the bytes: where memory holds the encoding of an instruction at the pc, the step is exec of that instruction and
the end-of-step check (decision D17, assumption log 12). The encodings' numbers are decisions D1 to D3 (log 14). -/
def Obligations.StepRunsTheEncodedInstruction : Prop :=
  ∀ (s : State) (i : Instr), s.stat = .aok → s.inBounds s.pc i.length →
    (∀ k, k < i.length → s.byteAt (s.pc.toNat + k) = (encode i).getD k 0) →
    ∃ t, exec i s = .next t ∧ step s = .next t.endOfStep

/-- A state has a step exactly when its status is AOK. -/
def Obligations.ExactlyAokHasAStep : Prop :=
  ∀ s : State, (∃ t, step s = .next t) ↔ s.stat = .aok

/-- A failed decode ends the run: the status is the fault's, the pc is 10 on after an address fault and unchanged after an
instruction fault, and nothing else changes. The pc is decision D16 (assumption log 11, the spec's U8). Which decodes fail, and
with which of the two, is decisions D4, D5 (log 15), D6, D7 (log 19) and D8 (log 16). -/
def Obligations.DecodeFaultEndsTheRun : Prop :=
  ∀ (s : State) (f : DecodeFault), s.stat = .aok → s.fetch = .error f →
    ((f = .startOutOfBounds ∨ f = .spanOutOfBounds) →
      step s = .next { s with stat := .addressFault, pc := s.pc + 10 }) ∧
    ((f = .undefinedFamily ∨ f = .subFunctionOutOfRange ∨ f = .registerConstraint) →
      step s = .next { s with stat := .instructionFault })

/-- At the last byte of memory: an illegal opcode byte is INSTRUCTION_FAULT (I1, I2 before A2), a legal one of a longer family is
ADDRESS_FAULT (A2 before I3), and a one-byte instruction decodes. The span check of every longer family and the order are
decisions D6 and D7 (assumption log 19), which bytes are illegal D4 and D5 (log 15, the spec's U1 and U2), the families' numbers
D1 (log 14), the pc after the faults D16 (log 11). -/
def Obligations.LastByteOfMemory : Prop :=
  ∀ s : State, s.stat = .aok → s.pc.toNat + 1 = s.config.memSize →
    (s.byteAt s.pc.toNat ∉ legalOpcodeBytes → step s = .next { s with stat := .instructionFault }) ∧
    (s.byteAt s.pc.toNat ∈ legalOpcodeBytes → lengthOfCode (hiNibble (s.byteAt s.pc.toNat)) ≠ 1 →
      step s = .next { s with stat := .addressFault, pc := s.pc + 10 }) ∧
    (s.byteAt s.pc.toNat ∈ legalOpcodeBytes → lengthOfCode (hiNibble (s.byteAt s.pc.toNat)) = 1 → ∃ i, s.fetch = .ok i)

/-- INSTRUCTION_FAULT has exactly the causes I1, I2, I3, all of the decoder. I1 for the nibble 0xD is decision D5 and I2 for five
families decision D4 (assumption log 15); four rows of I3 are decision D8 (log 16); the numbers of the families and registers are
D1 and D2 (log 14). That I3 counts only with the span in bounds, so that an overrun with a bad register byte is not
INSTRUCTION_FAULT, is a choice: the span check of decision D6 before the register check by decision D7 (log 19, the spec's U15:
either fault is possible). -/
def Obligations.InstructionFaultCauses : Prop :=
  ∀ s t : State, step s = .next t →
    let f := s.fieldsAt s.pc.toNat
    (t.stat = .instructionFault ↔
      s.inBounds s.pc 1 ∧ (f.definedFamily = false ∨ f.subFunctionInRange = false ∨
        (s.inBounds s.pc (lengthOfCode f.icode) ∧ f.registersLegal = false)))

/-- HALTED has exactly the causes H1 (HALT), H2 (an input trap whose host read fails) and H3 (an unrecognised trap); HALT clears
the flags, the others do not. That one of them in the last byte of memory ends HALTED, and not ADDRESS_FAULT, is decisions D17 and
D29 (assumption log 12, the spec's U9); the traps are decision D21, the host's answer a free value (log 7). -/
def Obligations.HaltedHasThreeCauses : Prop :=
  ∀ s t : State, step s = .next t →
    (t.stat = .halted ↔ ∃ i, s.fetch = .ok i ∧ (i = .halt ∨ ∃ n, trapNumber i = some n ∧
      (s.trapKind n = .unrecognised ∨
        ((s.trapKind n = .charIn ∨ s.trapKind n = .decIn) ∧ Config.hostAnswer s.inputDraws = none)))) ∧
    (t.stat = .halted → s.fetch = .ok .halt → t.flags = ⟨false, false, false⟩) ∧
    (t.stat = .halted → s.fetch ≠ .ok .halt → t.flags = s.flags)

/-- ADDRESS_FAULT has exactly the causes A1 to A8. A2: which opcode bytes are legal is decisions D4 and D5 (assumption log 15, the
spec's U1 and U2: a lax machine may give ADDRESS_FAULT for 0x31 in the last byte) with the numbers of D1 (log 14), and that A2
does not look at the register byte is D6 and D7 (log 19). A3 to A7 speak of a fetched instruction: which bytes are one is D4, D5
and D8 (log 15 and 16, U3). A3 to A6 are D11 and D12 (log 19), with the addresses of D9, D10 and D14 (log 17, 18 and 20); A7 is
D17 (log 12). A8, only when the host answers and with widths 1 and 8, is 46_iotrap.md R233 with D21 (log 7 and 25, the widths
PRESUMED); that its slot is a constant parameter is a choice (log 3, DESIGN CHOICE). -/
def Obligations.AddressFaultCauses : Prop :=
  ∀ s t : State, step s = .next t →
    (t.stat = .addressFault ↔
      s.config.memSize ≤ s.pc.toNat ∨
      (s.byteAt s.pc.toNat ∈ legalOpcodeBytes ∧ ¬ s.inBounds s.pc (lengthOfCode (hiNibble (s.byteAt s.pc.toNat)))) ∨
      ∃ i, s.fetch = .ok i ∧
        ((∃ a, dataAddress i s = some a ∧ ¬ s.inBounds a 8) ∨
         (∃ u, exec i s = .next u ∧ u.stat = .aok ∧ s.config.memSize ≤ u.pc.toNat) ∨
         (∃ n v, trapNumber i = some n ∧ inputBytes (s.trapKind n) ≠ 0 ∧ Config.hostAnswer s.inputDraws = some v ∧
           ¬ s.inBounds s.config.trapSlot (inputBytes (s.trapKind n)))))

/-! ## Invariants -/

/-- Every step keeps the invariant, from every state that meets it: legal parameters, a canonical memory image below MEMSIZE, and
a pc in memory while the status is AOK, the last by decision D17 (assumption log 12). That no byte past MEMSIZE is written rests
on the check of the whole access, decisions D11 and D12 (log 19). The canonical form is of the model's own list, whose unlisted
bytes read 0 (log 5); that the parameters, the slot among them, are constant is log 3. -/
def Obligations.EveryStepKeepsTheInvariant : Prop :=
  ∀ s t : State, s.Inv → step s = .next t → t.Inv

/-- The state after reset meets the invariant. Its status is decision D19 (assumption log 6); its MEMSIZE, pc and image are the
model's choices (log 1, 4, 5). -/
def Obligations.ResetMeetsTheInvariant : Prop := State.reset.Inv

/-- Every launch with legal parameters, an entry point in memory and an image in memory meets the invariant, starts at the entry
point, and holds the image's bytes. That a launch starts AOK is decision D19 (assumption log 6). -/
def Obligations.LaunchMeetsTheInvariant : Prop :=
  ∀ (c : Config) (entry : Word) (base : Nat) (bs : List Byte),
    c.Valid → entry.toNat < c.memSize → base + bs.length ≤ c.memSize →
    let s := State.launch c entry (imageOf base bs)
    s.Inv ∧ s.pc = entry ∧ s.config = c ∧ ∀ k, k < bs.length → s.byteAt (base + k) = bs.getD k 0

/-- From any state at all, a step that leaves the status AOK leaves the pc in memory. This is the end-of-step check of decision
D17 (assumption log 12). -/
def Obligations.AokStepLeavesPcInMemory : Prop :=
  ∀ s t : State, step s = .next t → t.stat = .aok → t.pc.toNat < t.config.memSize

/-- What reset leaves in every field of the state. The registers, the flags, the status and the empty line buffer are the values of
10_state.md R41, which the spec decides itself (decision D19, assumption log 6). The rest is the model's choice: MEMSIZE 4096 (log 1),
the default trap kinds (log 2), the slot 0x800 (log 3), ENTRY = 0 (log 4), an unlisted byte reading 0 (log 5), no answer taken (log
7), no output trap run (log 8), nothing emitted (log 9). -/
def Obligations.ResetValues : Prop :=
  (∀ r, State.reset.reg r = 0) ∧ State.reset.flags = ⟨false, false, false⟩ ∧ State.reset.stat = .aok ∧
    State.reset.pc = 0 ∧ (∀ a, State.reset.byteAt a = 0) ∧ State.reset.lineBuffer = [] ∧ State.reset.stdout = [] ∧
    State.reset.inputDraws = 0 ∧ State.reset.outputDraws = 0 ∧ State.reset.config.memSize = 4096 ∧
    State.reset.config.trapKinds = #v[.charOut, .charIn, .decOut, .decIn, .strOut, .flush] ∧
    State.reset.config.trapSlot = 0x800

/-! ## Whole-machine rules -/

/-- Who writes and who reads the flags: each arithmetic instruction writes all three on every execution, from its operands alone
(`aluFlags`: `ArithmeticResults` says which values, andq and xorq by decision D13, subq at -2^63 by the spec's U5, assumption log
20); HALT clears them; no other instruction and no failed decode changes them. Only the six conditional moves and six conditional
jumps read them, and only through their condition: for every other instruction the flags make no difference to anything else. For
the iotraps this holds because the host's answer and an output trap's text are free values that are functions of a counter alone,
a choice of the model (log 7 and 8). And those twelve do read them: for each there are two values of the flags that leave, from
any state, different pcs (for a jump whose destination is not the next instruction) or different values in `rB` (for a move
between registers of different values): that `rB` is the move's destination is decision D10 (log 18). -/
def Obligations.FlagWritersAndReaders : Prop :=
  (∀ p ∈ [(Instr.addq, AluOp.add), (Instr.subq, AluOp.sub), (Instr.andq, AluOp.and), (Instr.xorq, AluOp.xor)],
    ∀ (rA rB : Reg) (s : State), ∃ t, exec (p.1 rA rB) s = .next t ∧ t.flags = aluFlags p.2 (s.reg rA) (s.reg rB)) ∧
  (∀ s : State, ∃ t, exec .halt s = .next t ∧ t.flags = ⟨false, false, false⟩) ∧
  (∀ (i : Instr) (s : State), writesFlags i = false → ∃ t, exec i s = .next t ∧ t.flags = s.flags) ∧
  (∀ (s : State) (f : DecodeFault), s.stat = .aok → s.fetch = .error f → ∃ t, step s = .next t ∧ t.flags = s.flags) ∧
  (∀ (i : Instr) (s : State) (g : Flags), readsFlags i = false →
    ∃ t u, exec i s = .next t ∧ exec i (s.setFlags g) = .next u ∧ u.setFlags s.flags = t.setFlags s.flags) ∧
  (∀ (c : Cond) (s : State) (g : Flags), condHolds g c = condHolds s.flags c →
    (∀ rA rB, ∃ t u, exec (cmovInstr c rA rB) s = .next t ∧ exec (cmovInstr c rA rB) (s.setFlags g) = .next u ∧
      u.setFlags s.flags = t.setFlags s.flags) ∧
    (∀ d, ∃ t u, exec (jumpInstr c d) s = .next t ∧ exec (jumpInstr c d) (s.setFlags g) = .next u ∧
      u.setFlags s.flags = t.setFlags s.flags)) ∧
  (∀ c : Cond, c ≠ .always → ∃ f g : Flags,
    (∀ (d : Word) (s : State), d ≠ s.pc + 9 → ∃ t u, exec (jumpInstr c d) (s.setFlags f) = .next t ∧
      exec (jumpInstr c d) (s.setFlags g) = .next u ∧ t.pc ≠ u.pc) ∧
    (∀ (rA rB : Reg) (s : State), s.reg rA ≠ s.reg rB → ∃ t u, exec (cmovInstr c rA rB) (s.setFlags f) = .next t ∧
      exec (cmovInstr c rA rB) (s.setFlags g) = .next u ∧ t.reg rB ≠ u.reg rB))

/-- Where each instruction leaves the pc, unless it faults or is a trap of an unrecognised kind (those pcs are decisions D16 and
D21, assumption log 11 and 21). The pc after a trap of a known kind is 46_iotrap.md's with decision D21; sums wrap modulo 2^64 by
decision D14 (log 20). -/
def Obligations.PcAfterEachInstruction : Prop :=
  ∀ (i : Instr) (s t : State), s.stat = .aok → (∀ n, trapNumber i = some n → s.trapKind n ≠ .unrecognised) →
    exec i s = .next t → t.stat ≠ .addressFault → t.pc = pcAfter i s

/-- The general registers each instruction may write: its destination, RSP for the stack instructions; HALT, NOP, the jumps,
RMMOVQ and IOTRAP write none. That the destination is `rB` for the conditional moves and the arithmetic family and `rA` for MRMOVQ
is decision D10 (assumption log 18); that IOTRAP writes none is 46_iotrap.md R230. -/
def Obligations.OnlyListedRegistersAreWritten : Prop :=
  ∀ (i : Instr) (s t : State), exec i s = .next t → SameRegsExcept (writtenRegs i) s t

/-- The bytes of memory each instruction may write: the eight at its address for RMMOVQ, CALL and PUSHQ, the one or eight at
IOTRAP_SLOT for an input trap, none for any other (the other traps by decision D21). The address of an RMMOVQ takes an absent base
as 0 by decision D9 (assumption log 17), `rB` as the base by D10 (log 18); it and the slot wrap by D14 (log 20). The two widths
are PRESUMED (log 25), the slot is log 3. -/
def Obligations.OnlyStoredBytesChange : Prop :=
  ∀ (i : Instr) (s t : State), s.mem.wf → exec i s = .next t →
    (∀ a n, storeSpan i s = some (a, n) → SameBytesOutside a n s t) ∧ (storeSpan i s = none → SameBytes s t)

/-- The launch parameters never change, and only IOTRAP touches the line buffer and the host's streams. That IOTRAP_SLOT is such a
parameter, constant during a run, is a DESIGN CHOICE (assumption log 3); the counts of answers and of output traps and the emitted
bytes are the model's own fields (log 7, 8 and 9). -/
def Obligations.OnlyIotrapReachesTheHost : Prop :=
  ∀ (i : Instr) (s t : State), exec i s = .next t →
    t.config = s.config ∧ (trapNumber i = none → SameHost s t)

/-! ## HALT, NOP and the moves -/

/-- `halt`: HALTED, the flags cleared, the pc past it, nothing else. -/
def Obligations.HaltStopsAndClearsFlags : Prop :=
  ∀ s : State, exec .halt s = .next { s with stat := .halted, flags := ⟨false, false, false⟩, pc := s.pc + 1 }

/-- `nop`: only the pc. -/
def Obligations.NopOnlyAdvances : Prop :=
  ∀ s : State, exec .nop s = .next { s with pc := s.pc + 1 }

/-- The seven conditional moves: the destination takes the source's value when the condition holds and keeps its own otherwise;
only it and the pc change. The destination is `rB` by decision D10 (assumption log 18); which number selects which condition is
decision D3 and no part of the statement. -/
def Obligations.ConditionalMoves : Prop :=
  ∀ p ∈ [(Instr.rrmovq, fun _ : Flags => true), (Instr.cmovle, fun f => f.zf || (f.sf ^^ f.of)),
      (Instr.cmovl, fun f => f.sf ^^ f.of), (Instr.cmove, fun f => f.zf), (Instr.cmovne, fun f => !f.zf),
      (Instr.cmovge, fun f => f.sf == f.of), (Instr.cmovg, fun f => !f.zf && (f.sf == f.of))],
    ∀ (rA rB : Reg) (s : State), ∃ t, exec (p.1 rA rB) s = .next t ∧
      t.reg rB = (if p.2 s.flags then s.reg rA else s.reg rB) ∧ SameRegsExcept [rB] s t ∧
      t.pc = s.pc + 2 ∧ t.flags = s.flags ∧ t.stat = s.stat ∧ SameBytes s t ∧ SameHost s t

/-- `irmovq`: the destination takes all 64 bits of the immediate; only it and the pc change. -/
def Obligations.ImmediateMove : Prop :=
  ∀ (v : Word) (rB : Reg) (s : State), ∃ t, exec (.irmovq v rB) s = .next t ∧
    t.reg rB = v ∧ SameRegsExcept [rB] s t ∧
    t.pc = s.pc + 10 ∧ t.flags = s.flags ∧ t.stat = s.stat ∧ SameBytes s t ∧ SameHost s t

/-- `rmmovq` in bounds: the register's eight bytes, little endian, at base plus displacement; only they and the pc change. The
base is `rB` by decision D10 (assumption log 18), an absent base counts 0 by decision D9 (log 17), the sum is modulo 2^64 by
decision D14 (log 20); that the eight bytes are in bounds, and not the first alone, is what R54 asks with decision D11 (log 19).
-/
def Obligations.StoreInBounds : Prop :=
  ∀ (rA : Reg) (rB : Option Reg) (d : Word) (s : State), s.mem.wf → s.inBounds (s.effectiveAddress rB d) 8 →
    s.effectiveAddress rB d = (match rB with | some r => s.reg r | none => 0) + d ∧
    ∃ t, exec (.rmmovq rA rB d) s = .next t ∧
      (∀ k, k < 8 → t.byteAt ((s.effectiveAddress rB d).toNat + k) = (s.reg rA).extractLsb' (8 * k) 8) ∧
      SameBytesOutside (s.effectiveAddress rB d).toNat 8 s t ∧ SameRegsExcept [] s t ∧
      t.pc = s.pc + 10 ∧ t.flags = s.flags ∧ t.stat = s.stat ∧ SameHost s t

/-- `mrmovq` in bounds: the destination takes the little-endian word at base plus displacement, the base read before the
destination is written; only it and the pc change. The destination is `rA` and the base `rB` by decision D10 (assumption log 18),
an absent base counts 0 by decision D9 (log 17), the sum is modulo 2^64 by decision D14 (log 20), and the eight bytes are to be in
bounds by decision D11 (log 19). -/
def Obligations.LoadInBounds : Prop :=
  ∀ (rA : Reg) (rB : Option Reg) (d : Word) (s : State), s.inBounds (s.effectiveAddress rB d) 8 →
    s.effectiveAddress rB d = (match rB with | some r => s.reg r | none => 0) + d ∧
    ∃ t, exec (.mrmovq rA rB d) s = .next t ∧
      (∀ k, k < 8 → (t.reg rA).extractLsb' (8 * k) 8 = s.byteAt ((s.effectiveAddress rB d).toNat + k)) ∧
      SameRegsExcept [rA] s t ∧
      t.pc = s.pc + 10 ∧ t.flags = s.flags ∧ t.stat = s.stat ∧ SameBytes s t ∧ SameHost s t

/-! ## Arithmetic -/

/-- The four arithmetic instructions: second OP first modulo 2^64 (decision D14) into `rB` (decision D10, assumption log 18), ZF
and SF from the result, OF, the pc; nothing else changes. OF of addq is the source's sign rule. OF of subq is this spec's reading
of the source's 'correct sign convention per operator' (40_execution_model.md R138), a choice where the first operand is -2^63: a
machine that negates and adds would differ there (assumption log 20, the spec's U5). OF after andq and xorq is cleared by decision
D13 (log 20, the spec's U6). -/
def Obligations.ArithmeticResults : Prop :=
  ∀ p ∈ [(Instr.addq, fun a b : Word => b + a, fun a b r : Word => (a.msb == b.msb) && (r.msb != a.msb)),
      (Instr.subq, fun a b : Word => b - a, fun a b r : Word => (a.msb != b.msb) && (r.msb != b.msb)),
      (Instr.andq, fun a b : Word => b &&& a, fun _ _ _ : Word => false),
      (Instr.xorq, fun a b : Word => b ^^^ a, fun _ _ _ : Word => false)],
    ∀ (rA rB : Reg) (s : State), ∃ t, exec (p.1 rA rB) s = .next t ∧
      t.reg rB = p.2.1 (s.reg rA) (s.reg rB) ∧ SameRegsExcept [rB] s t ∧
      t.flags = ⟨decide (t.reg rB = 0), (t.reg rB).getLsbD 63, p.2.2 (s.reg rA) (s.reg rB) (t.reg rB)⟩ ∧
      t.pc = s.pc + 2 ∧ t.stat = s.stat ∧ SameBytes s t ∧ SameHost s t

/-- OF of addq and subq is exactly signed overflow of the exact sum and difference, second minus first (the spec's own inference
R139); for `subq` with a first operand of -2^63 this is a choice (assumption log 20, the spec's U5). -/
def Obligations.OverflowIsExactSignedOverflow : Prop :=
  ∀ (rA rB : Reg) (s : State),
    (∃ t, exec (.addq rA rB) s = .next t ∧
      (t.flags.of = true ↔
        ¬ (-2 ^ 63 ≤ (s.reg rB).toInt + (s.reg rA).toInt ∧ (s.reg rB).toInt + (s.reg rA).toInt < 2 ^ 63))) ∧
    (∃ t, exec (.subq rA rB) s = .next t ∧
      (t.flags.of = true ↔
        ¬ (-2 ^ 63 ≤ (s.reg rB).toInt - (s.reg rA).toInt ∧ (s.reg rB).toInt - (s.reg rA).toInt < 2 ^ 63)))

/-- After `subq rA, rB` the conditions compare the old values as signed integers, second with first (43_arith.md R192). For le, l, ge
and g with a first operand of -2^63 this rests on OF of `subq` being exact there, which is a choice (assumption log 20, the spec's
U5: a machine that negates and adds would differ); the comparison is the spec's own inference too (R136, R139). -/
def Obligations.SubtractThenConditionsCompare : Prop :=
  ∀ (rA rB : Reg) (s : State), ∃ t, exec (.subq rA rB) s = .next t ∧
    (condHolds t.flags .le = true ↔ (s.reg rB).toInt ≤ (s.reg rA).toInt) ∧
    (condHolds t.flags .l = true ↔ (s.reg rB).toInt < (s.reg rA).toInt) ∧
    (condHolds t.flags .e = true ↔ s.reg rB = s.reg rA) ∧
    (condHolds t.flags .ne = true ↔ s.reg rB ≠ s.reg rA) ∧
    (condHolds t.flags .ge = true ↔ (s.reg rA).toInt ≤ (s.reg rB).toInt) ∧
    (condHolds t.flags .g = true ↔ (s.reg rA).toInt < (s.reg rB).toInt)

/-! ## Control transfer and the stack -/

/-- The seven jumps: the destination when the condition holds, the next instruction otherwise; nothing but the pc changes, in
bounds or not. -/
def Obligations.Jumps : Prop :=
  ∀ p ∈ [(Instr.jmp, fun _ : Flags => true), (Instr.jle, fun f => f.zf || (f.sf ^^ f.of)),
      (Instr.jl, fun f => f.sf ^^ f.of), (Instr.je, fun f => f.zf), (Instr.jne, fun f => !f.zf),
      (Instr.jge, fun f => f.sf == f.of), (Instr.jg, fun f => !f.zf && (f.sf == f.of))],
    ∀ (d : Word) (s : State), exec (p.1 d) s = .next { s with pc := if p.2 s.flags then d else s.pc + 9 }

/-- `call` with its slot in bounds: the return address pc + 9 at `x[RSP] - 8`, RSP there, the pc at the destination. That all
eight bytes of the slot are to be in bounds is decision D11 (assumption log 19), the wrap modulo 2^64 decision D14 (log 20). -/
def Obligations.CallInBounds : Prop :=
  ∀ (d : Word) (s : State), s.mem.wf → s.inBounds (s.reg .rsp - 8) 8 →
    ∃ t, exec (.call d) s = .next t ∧
      (∀ k, k < 8 → t.byteAt ((s.reg .rsp - 8).toNat + k) = (s.pc + 9).extractLsb' (8 * k) 8) ∧
      SameBytesOutside (s.reg .rsp - 8).toNat 8 s t ∧ t.reg .rsp = s.reg .rsp - 8 ∧ SameRegsExcept [.rsp] s t ∧
      t.pc = d ∧ t.flags = s.flags ∧ t.stat = s.stat ∧ SameHost s t

/-- `ret` with its slot in bounds: the pc is the little-endian word at the stack pointer, RSP is 8 more, untested. That the slot
is to be in bounds is decision D12 (assumption log 19), the wrap modulo 2^64 decision D14 (log 20). -/
def Obligations.ReturnInBounds : Prop :=
  ∀ s : State, s.inBounds (s.reg .rsp) 8 →
    ∃ t, exec .ret s = .next t ∧
      (∀ k, k < 8 → t.pc.extractLsb' (8 * k) 8 = s.byteAt ((s.reg .rsp).toNat + k)) ∧
      t.reg .rsp = s.reg .rsp + 8 ∧ SameRegsExcept [.rsp] s t ∧
      t.flags = s.flags ∧ t.stat = s.stat ∧ SameBytes s t ∧ SameHost s t

/-- `pushq` with its slot in bounds: the register's value before the step (the old stack pointer for `pushq %rsp`) at `x[RSP] -
8`, RSP there. That the slot is to be in bounds is decision D12 (assumption log 19), the wrap modulo 2^64 decision D14 (log 20).
-/
def Obligations.PushInBounds : Prop :=
  ∀ (rA : Reg) (s : State), s.mem.wf → s.inBounds (s.reg .rsp - 8) 8 →
    ∃ t, exec (.pushq rA) s = .next t ∧
      (∀ k, k < 8 → t.byteAt ((s.reg .rsp - 8).toNat + k) = (s.reg rA).extractLsb' (8 * k) 8) ∧
      SameBytesOutside (s.reg .rsp - 8).toNat 8 s t ∧ t.reg .rsp = s.reg .rsp - 8 ∧ SameRegsExcept [.rsp] s t ∧
      t.pc = s.pc + 2 ∧ t.flags = s.flags ∧ t.stat = s.stat ∧ SameHost s t

/-- `popq` with its slot in bounds: the destination takes the word at the old stack pointer, RSP is 8 more unless it is the
destination itself. That the slot is to be in bounds is decision D12 (assumption log 19), the wrap modulo 2^64 decision D14 (log
20). -/
def Obligations.PopInBounds : Prop :=
  ∀ (rA : Reg) (s : State), s.inBounds (s.reg .rsp) 8 →
    ∃ t, exec (.popq rA) s = .next t ∧
      (∀ k, k < 8 → (t.reg rA).extractLsb' (8 * k) 8 = s.byteAt ((s.reg .rsp).toNat + k)) ∧
      (rA ≠ .rsp → t.reg .rsp = s.reg .rsp + 8) ∧ SameRegsExcept [.rsp, rA] s t ∧
      t.pc = s.pc + 2 ∧ t.flags = s.flags ∧ t.stat = s.stat ∧ SameBytes s t ∧ SameHost s t

/-- The six instructions with a data access, when its eight bytes are not all in memory: ADDRESS_FAULT and nothing else, the pc
included. The check of all eight bytes is decisions D11 and D12 (assumption log 19), the pc D16 (log 11), the absence of partial
effects D24 (log 13). Of a load or store the absent base is 0 by D9 (log 17), the base `rB` by D10 (log 18); addresses wrap by D14
(log 20). -/
def Obligations.DataAccessOutOfBoundsFaults : Prop :=
  ∀ s : State,
    (∀ rA rB d, ¬ s.inBounds (s.effectiveAddress rB d) 8 →
      exec (.rmmovq rA rB d) s = .next { s with stat := .addressFault } ∧
      exec (.mrmovq rA rB d) s = .next { s with stat := .addressFault }) ∧
    (¬ s.inBounds (s.reg .rsp - 8) 8 →
      (∀ d, exec (.call d) s = .next { s with stat := .addressFault }) ∧
      (∀ rA, exec (.pushq rA) s = .next { s with stat := .addressFault })) ∧
    (¬ s.inBounds (s.reg .rsp) 8 →
      exec .ret s = .next { s with stat := .addressFault } ∧
      (∀ rA, exec (.popq rA) s = .next { s with stat := .addressFault }))

/-- A push and then a pop: the popped register holds the pushed value, RSP is back, every other register is as before. That the
slot is to be in bounds is decision D12 (assumption log 19), the wrap modulo 2^64 decision D14 (log 20). -/
def Obligations.PushThenPopMovesTheValue : Prop :=
  ∀ (rA rB : Reg) (s : State), s.mem.wf → s.inBounds (s.reg .rsp - 8) 8 →
    ∃ t u, exec (.pushq rA) s = .next t ∧ exec (.popq rB) t = .next u ∧
      u.reg rB = s.reg rA ∧ SameRegsExcept [rB] s u ∧ u.pc = s.pc + 4 ∧ u.flags = s.flags

/-- A call and then a ret: the pc is the instruction after the call and every register is as before the call. That the slot is to
be in bounds is decisions D11 and D12 (assumption log 19), the wrap modulo 2^64 decision D14 (log 20). -/
def Obligations.CallThenReturnComesBack : Prop :=
  ∀ (d : Word) (s : State), s.mem.wf → s.inBounds (s.reg .rsp - 8) 8 →
    ∃ t u, exec (.call d) s = .next t ∧ t.pc = d ∧ exec .ret t = .next u ∧
      u.pc = s.pc + 9 ∧ SameRegsExcept [] s u ∧ u.flags = s.flags

/-! ## IOTRAP (decision D21) -/

/-- An IOTRAP of an output kind: the pc advances and unspecified text goes to the line buffer; nothing else changes (decision
D21). The text is a free value (assumption log 8), the count of output traps the model's own (log 8). -/
def Obligations.OutputTraps : Prop :=
  ∀ p ∈ [(Instr.iotrap0, (0 : Fin 6)), (.iotrap1, 1), (.iotrap2, 2), (.iotrap3, 3), (.iotrap4, 4), (.iotrap5, 5)],
    ∀ s : State, (s.trapKind p.2 = .charOut ∨ s.trapKind p.2 = .decOut ∨ s.trapKind p.2 = .strOut) →
      ∃ text, exec p.1 s = .next { s with
        pc := s.pc + 1, lineBuffer := s.lineBuffer ++ text, outputDraws := s.outputDraws + 1 }

/-- An IOTRAP of the flush kind: the line buffer goes to standard output in order and becomes empty, the pc advances (46_iotrap.md
R237, decision D21). The record of what was emitted is the model's own (assumption log 9). -/
def Obligations.FlushTraps : Prop :=
  ∀ p ∈ [(Instr.iotrap0, (0 : Fin 6)), (.iotrap1, 1), (.iotrap2, 2), (.iotrap3, 3), (.iotrap4, 4), (.iotrap5, 5)],
    ∀ s : State, s.trapKind p.2 = .flush →
      exec p.1 s = .next { s with pc := s.pc + 1, stdout := s.stdout ++ s.lineBuffer, lineBuffer := [] }

/-- An IOTRAP of an input kind of `n` bytes (1 or 8, PRESUMED, assumption log 25): the host answers; `Ok(v)` with the slot in
bounds stores the `n` low bytes of `v` there, little endian, and with the slot out of bounds (A8) raises ADDRESS_FAULT and stores
nothing; `Fail` halts and stores nothing (decision D21). The pc advances but for A8, where it stays by decision D16 (assumption log
11); that A8 too has consumed the answer is a DESIGN CHOICE (log 30); the slot is log 3. Registers and flags never change. -/
def Obligations.InputTraps : Prop :=
  ∀ p ∈ [(Instr.iotrap0, (0 : Fin 6)), (.iotrap1, 1), (.iotrap2, 2), (.iotrap3, 3), (.iotrap4, 4), (.iotrap5, 5)],
    ∀ (s : State) (n : Nat), s.mem.wf → (s.trapKind p.2 = .charIn ∧ n = 1 ∨ s.trapKind p.2 = .decIn ∧ n = 8) →
      ∃ t, exec p.1 s = .next t ∧ SameRegsExcept [] s t ∧ t.flags = s.flags ∧ t.config = s.config ∧
        t.lineBuffer = s.lineBuffer ∧ t.stdout = s.stdout ∧ t.inputDraws = s.inputDraws + 1 ∧ t.outputDraws = s.outputDraws ∧
        match Config.hostAnswer s.inputDraws with
        | some v =>
          if s.inBounds s.config.trapSlot n then
            (∀ k, k < n → t.byteAt (s.config.trapSlot.toNat + k) = v.extractLsb' (8 * k) 8) ∧
              SameBytesOutside s.config.trapSlot.toNat n s t ∧ t.stat = s.stat ∧ t.pc = s.pc + 1
          else SameBytes s t ∧ t.stat = .addressFault ∧ t.pc = s.pc
        | none => SameBytes s t ∧ t.stat = .halted ∧ t.pc = s.pc + 1

/-- An IOTRAP of an unrecognised kind: HALTED, nothing else. That the pc stays is decision D21 (assumption log 21, the spec's U18:
any pc is possible). -/
def Obligations.UnrecognisedTraps : Prop :=
  ∀ p ∈ [(Instr.iotrap0, (0 : Fin 6)), (.iotrap1, 1), (.iotrap2, 2), (.iotrap3, 3), (.iotrap4, 4), (.iotrap5, 5)],
    ∀ s : State, s.trapKind p.2 = .unrecognised → exec p.1 s = .next { s with stat := .halted }

/-- The envelope of IOTRAP: whatever the kind and the host's answer, every IOTRAP completes; no register and no flag is written;
no byte is written but the 1 or 8 (PRESUMED, assumption log 25) at IOTRAP_SLOT (log 3) by an input trap the host answered; the
status afterwards is AOK or HALTED but for an input trap whose slot is out of bounds; and when it stays AOK the pc advances.
Failure and the unrecognised kind are decision D21; the answer is a free value (log 7). -/
def Obligations.IotrapEnvelope : Prop :=
  ∀ p ∈ [(Instr.iotrap0, (0 : Fin 6)), (.iotrap1, 1), (.iotrap2, 2), (.iotrap3, 3), (.iotrap4, 4), (.iotrap5, 5)],
    ∀ s : State, s.mem.wf → s.stat = .aok →
      ∃ t, exec p.1 s = .next t ∧ SameRegsExcept [] s t ∧ t.flags = s.flags ∧
        SameBytesOutside s.config.trapSlot.toNat (inputBytes (s.trapKind p.2)) s t ∧
        (Config.hostAnswer s.inputDraws = none → SameBytes s t) ∧
        (t.stat = .aok ∨ t.stat = .halted ∨ (t.stat = .addressFault ∧ inputBytes (s.trapKind p.2) ≠ 0 ∧
          ¬ s.inBounds s.config.trapSlot (inputBytes (s.trapKind p.2)))) ∧
        (t.stat = .aok → t.pc = s.pc + 1)

/-! ## Memory -/

/-- `MemRead` of `n` bytes, 1 or 8: little endian, the sum of byte k times 2^(8k); the word a load reads is that of 8, and its
bits 8k+7 to 8k are byte k. -/
def Obligations.ReadIsTheLittleEndianSum : Prop :=
  ∀ (m : Memory) (a n : Nat), (n = 1 ∨ n = 8) →
    natLE (m.readBytes a n) = ((List.range n).map (fun k => (m.read (a + k)).toNat * 2 ^ (8 * k))).sum ∧
    (m.readWord a).toNat = natLE (m.readBytes a 8) ∧
    ∀ k, k < 8 → (m.readWord a).extractLsb' (8 * k) 8 = m.read (a + k)

/-- `MemWrite` of 1 or 8 bytes: byte k is bits 8k+7 to 8k of the value, and no other byte changes. -/
def Obligations.WriteStoresLittleEndianBytes : Prop :=
  ∀ (m : Memory) (a n : Nat) (v : Word), m.wf → (n = 1 ∨ n = 8) →
    (∀ k, k < n → (m.writeLE a n v).read (a + k) = v.extractLsb' (8 * k) 8) ∧
    (∀ b, b < a ∨ a + n ≤ b → (m.writeLE a n v).read b = m.read b)

/-- With MEMSIZE at most 2^63 the bounds test is the source's signed one, for every byte address `a, a+1, .., a+n-1` of the
access: read as a signed 64-bit integer it is at least 0 and below the capacity (20_memory.md R53, where the spec derives it). The
bound 2^63 is the spec's own, decision D18 (assumption log 1); the byte addresses wrap by D14 (log 20). -/
def Obligations.BoundsTestIsTheSignedTest : Prop :=
  ∀ (s : State) (a : Word) (n : Nat), s.config.Valid → 1 ≤ n →
    (s.inBounds a n ↔
      ∀ k, k < n → 0 ≤ (a + BitVec.ofNat 64 k).toInt ∧ (a + BitVec.ofNat 64 k).toInt < s.config.memSize)

/-- A store is seen by the next fetch: a store over the bytes of the very next instruction leaves, at the next state, the stored
bytes as what the decoder reads there (through the window of ten bytes, assumption log 31). The store's address, assumed to be pc
+ 10, is base plus displacement modulo 2^64 by decision D14 (log 20); the base is `rB` by D10 (log 18), an absent one counts 0 by
D9 (log 17); that all eight bytes are to be in bounds is D11 (log 19), and that the step stays AOK is the end-of-step check of D17
(log 12). -/
def Obligations.StoreIsSeenByTheNextFetch : Prop :=
  ∀ (s : State) (rA : Reg) (rB : Option Reg) (d : Word), s.config.Valid → s.mem.wf → s.stat = .aok →
    s.fetch = .ok (.rmmovq rA rB d) → s.effectiveAddress rB d = s.pc + 10 → s.inBounds (s.pc + 10) 8 →
    ∃ t, step s = .next t ∧ t.stat = .aok ∧ t.pc = s.pc + 10 ∧ t.fetchWindow.take 8 = wordBytes (s.reg rA)

/-! ## The opcode table -/

/-- The rows of opcode_table.json say what the decoder does: a byte string as long as an instruction's row meets that row's mask,
pattern and constraints (30_encoding.md R97) exactly when it decodes to an instruction of that row. The numbers and constraints in
the rows are decisions D1 to D3 (assumption log 14), D4 and D5 (log 15) and D8 (log 16), the check of the length D6 (log 19). -/
def Obligations.TableRowsSayWhatDecodes : Prop :=
  ∀ (i : Instr) (bs : List Byte),
    (i.row.matchesBytes bs = true ∧ i.row.length ≤ bs.length) ↔ ∃ j, decode bs = .ok j ∧ j.row = i.row
end

