-- ==== Sys2Proof/Laws/Memory.lean ====
section
/-! SUPPORT. The laws of the memory image: read after write, writes elsewhere, the canonical form is kept, little-endian words. -/

namespace Sys2Proof.Machine

/-! ## The canonical form -/

/-- The tail of a canonical image is canonical. -/
theorem Memory.wf_tail {c : Host.Cell} {m : Memory} (h : Memory.wf (c :: m)) : Memory.wf m :=
  ⟨(List.pairwise_cons.1 h.1).2, fun d hd => h.2 d (List.mem_cons_of_mem _ hd)⟩

/-- An address below or at the head of a canonical image is not listed in the tail. -/
theorem Memory.read_below {m : Memory} {a : Nat} (h : ∀ c ∈ m, a < c.1) : Memory.read m a = Memory.unlisted := by
  induction m with
  | nil => rfl
  | cons c m ih =>
    obtain ⟨k, b⟩ := c
    have hk : a < k := h (k, b) (List.mem_cons_self ..)
    simp only [Memory.read, if_neg (Nat.ne_of_lt hk)]
    exact ih fun d hd => h d (List.mem_cons_of_mem _ hd)

/-- A cell of an image after a write was there before or is the one written. -/
theorem Memory.mem_write {m : Memory} {a : Nat} {v : Byte} {c : Host.Cell} (h : c ∈ Memory.write m a v) :
    c ∈ m ∨ (c = (a, v) ∧ v ≠ Memory.unlisted) := by
  induction m with
  | nil =>
    simp only [Memory.write] at h
    split at h
    · exact absurd h (List.not_mem_nil)
    · rename_i hv; exact .inr ⟨List.mem_singleton.1 h, hv⟩
  | cons d m ih =>
    obtain ⟨k, b⟩ := d
    simp only [Memory.write] at h
    split at h
    · split at h
      · exact .inl h
      · rename_i hv
        rcases List.mem_cons.1 h with rfl | h
        · exact .inr ⟨rfl, hv⟩
        · exact .inl h
    · split at h
      · split at h
        · exact .inl (List.mem_cons_of_mem _ h)
        · rename_i hv
          rcases List.mem_cons.1 h with rfl | h
          · exact .inr ⟨rfl, hv⟩
          · exact .inl (List.mem_cons_of_mem _ h)
      · rcases List.mem_cons.1 h with rfl | h
        · exact .inl (List.mem_cons_self ..)
        · exact (ih h).imp (List.mem_cons_of_mem _) id

/-- A write keeps the canonical form. -/
theorem Memory.write_wf {m : Memory} (h : m.wf) (a : Nat) (v : Byte) : (m.write a v).wf := by
  refine ⟨?_, fun c hc => (Memory.mem_write hc).elim (h.2 c) fun e => by rw [e.1]; exact e.2⟩
  induction m with
  | nil => simp only [Memory.write]; split <;> simp
  | cons d m ih =>
    obtain ⟨k, b⟩ := d
    have hd := List.pairwise_cons.1 h.1
    simp only [Memory.write]
    split
    · rename_i hlt
      split
      · exact h.1
      · refine List.pairwise_cons.2 ⟨fun c hc => ?_, h.1⟩
        rcases List.mem_cons.1 hc with rfl | hc
        · exact hlt
        · exact Nat.lt_trans hlt (hd.1 c hc)
    · split
      · rename_i he
        split
        · exact hd.2
        · exact List.pairwise_cons.2 ⟨fun c hc => he ▸ hd.1 c hc, hd.2⟩
      · refine List.pairwise_cons.2 ⟨fun c hc => ?_, ih (Memory.wf_tail h)⟩
        rcases Memory.mem_write hc with hc | ⟨rfl, -⟩
        · exact hd.1 c hc
        · rename_i h1 h2; simp only; omega

/-- Storing several bytes keeps the canonical form. -/
theorem Memory.writeBytes_wf {m : Memory} (h : m.wf) (a : Nat) (bs : List Byte) : (m.writeBytes a bs).wf := by
  induction bs generalizing m a with
  | nil => exact h
  | cons b bs ih => exact ih (Memory.write_wf h a b) (a + 1)

/-- `MemWrite` keeps the canonical form. -/
theorem Memory.writeLE_wf {m : Memory} (h : m.wf) (a n : Nat) (v : Word) : (m.writeLE a n v).wf :=
  Memory.writeBytes_wf h a _

/-- An image made of a list of bytes is canonical. -/
theorem imageOf_wf (a : Nat) (bs : List Byte) : (imageOf a bs).wf :=
  Memory.writeBytes_wf ⟨List.Pairwise.nil, fun _ h => absurd h (List.not_mem_nil)⟩ a bs

/-- Every address listed after a write of bytes was listed before or is one of those written. -/
theorem Memory.mem_writeBytes {m : Memory} {a : Nat} {bs : List Byte} {c : Host.Cell} (h : c ∈ m.writeBytes a bs) :
    c ∈ m ∨ (a ≤ c.1 ∧ c.1 < a + bs.length) := by
  induction bs generalizing m a with
  | nil => exact .inl h
  | cons b bs ih =>
    rcases ih h with h | h
    · rcases Memory.mem_write h with h | ⟨rfl, -⟩
      · exact .inl h
      · exact .inr ⟨Nat.le_refl _, by simp⟩
    · refine .inr ?_
      simp only [List.length_cons]
      omega

/-! ## Read after write -/

/-- A byte read after a byte write (20_memory.md R57, R61). -/
theorem Memory.read_write {m : Memory} (h : m.wf) (a : Nat) (v : Byte) (b : Nat) :
    (m.write a v).read b = if b = a then v else m.read b := by
  induction m with
  | nil =>
    simp only [Memory.write]
    split
    · rename_i hv; simp only [Memory.read]; split <;> simp [hv]
    · rfl
  | cons d m ih =>
    obtain ⟨k, w⟩ := d
    have hd := List.pairwise_cons.1 h.1
    simp only [Memory.write]
    split
    · rename_i hlt
      split
      · rename_i hv
        by_cases hb : b = a
        · subst hb
          rw [if_pos rfl, hv]
          refine Memory.read_below fun c hc => ?_
          rcases List.mem_cons.1 hc with rfl | hc
          · exact hlt
          · exact Nat.lt_trans hlt (hd.1 c hc)
        · rw [if_neg hb]
      · rfl
    · split
      · rename_i he
        subst he
        have hr := fun hb : b = a => Memory.read_below (m := m) (a := b) fun c hc => hb ▸ hd.1 c hc
        split
        · rename_i hv
          by_cases hb : b = a
          · rw [if_pos hb, hr hb, hv]
          · simp only [Memory.read, if_neg hb]
        · simp only [Memory.read]
          split <;> rfl
      · rename_i h1 h2
        simp only [Memory.read, ih (Memory.wf_tail h)]
        by_cases hk : b = k
        · have : b ≠ a := by omega
          simp [hk, hk ▸ this]
        · simp [hk]

/-- A byte read after several bytes were stored. -/
theorem Memory.read_writeBytes {m : Memory} (h : m.wf) (a : Nat) (bs : List Byte) (b : Nat) :
    (m.writeBytes a bs).read b = if a ≤ b ∧ b < a + bs.length then bs.getD (b - a) 0 else m.read b := by
  induction bs generalizing m a with
  | nil => rw [if_neg (by simp)]; rfl
  | cons w bs ih =>
    simp only [Memory.writeBytes, ih (Memory.write_wf h a w), Memory.read_write h, List.length_cons]
    by_cases hb : b = a
    · subst hb; simp
    · by_cases hin : a + 1 ≤ b ∧ b < a + 1 + bs.length
      · rw [if_pos hin, if_pos (by omega), show b - a = (b - (a + 1)) + 1 by omega]; simp
      · rw [if_neg hin, if_neg hb, if_neg (by omega)]

theorem bytesLE_length (n x : Nat) : (bytesLE n x).length = n := by
  induction n generalizing x with
  | zero => rfl
  | succ n ih => simp [bytesLE, ih]

/-- The number of the bytes of a number (20_memory.md R56, R57). -/
theorem natLE_bytesLE (n x : Nat) : natLE (bytesLE n x) = x % 256 ^ n := by
  induction n generalizing x with
  | zero => simp [bytesLE, natLE, Nat.mod_one]
  | succ n ih =>
    rw [Nat.pow_succ', Nat.mod_mul, ← ih]
    rfl

/-- The number of `n` bytes is below `256^n`. -/
theorem natLE_lt (bs : List Byte) : natLE bs < 256 ^ bs.length := by
  induction bs with
  | nil => simp [natLE]
  | cons b bs ih =>
    have := b.isLt
    simp only [natLE, List.length_cons, Nat.pow_succ]
    omega

/-- The bytes of the number of some bytes are those bytes. -/
theorem bytesLE_natLE (bs : List Byte) : bytesLE bs.length (natLE bs) = bs := by
  induction bs with
  | nil => rfl
  | cons b bs ih =>
    have := b.isLt
    simp only [List.length_cons, bytesLE, natLE]
    have h1 : BitVec.ofNat 8 (b.toNat + 256 * natLE bs) = b := by
      apply BitVec.eq_of_toNat_eq; simp only [BitVec.toNat_ofNat]; omega
    have h2 : (b.toNat + 256 * natLE bs) / 256 = natLE bs := by omega
    rw [h1, h2, ih]

@[simp] theorem wordBytes_length (v : Word) : (wordBytes v).length = 8 := bytesLE_length 8 _

/-- `LE64` of the bytes of a word is the word. -/
@[simp] theorem wordOfBytes_wordBytes (v : Word) : wordOfBytes (wordBytes v) = v := by
  unfold wordOfBytes wordBytes
  rw [natLE_bytesLE]
  apply BitVec.eq_of_toNat_eq
  simp only [BitVec.toNat_ofNat]
  have := v.isLt
  omega

/-- The bytes of `LE64` of eight bytes are those bytes. -/
theorem wordBytes_wordOfBytes (bs : List Byte) (h : bs.length = 8) : wordBytes (wordOfBytes bs) = bs := by
  have hlt := natLE_lt bs
  rw [h] at hlt
  have : (wordOfBytes bs).toNat = natLE bs := by
    simp only [wordOfBytes, BitVec.toNat_ofNat]; omega
  rw [wordBytes, this, ← h, bytesLE_natLE]

/-- Byte `k` of a number is its bits `8k+7 .. 8k` (20_memory.md R57). -/
theorem bytesLE_getD (n x k : Nat) (hk : k < n) : (bytesLE n x).getD k 0 = BitVec.ofNat 8 (x / 256 ^ k) := by
  induction n generalizing x k with
  | zero => omega
  | succ n ih =>
    cases k with
    | zero => simp [bytesLE]
    | succ k =>
      simp only [bytesLE, List.getD_cons_succ]
      rw [ih _ _ (by omega), Nat.div_div_eq_div_mul, Nat.pow_succ']

@[simp] theorem Memory.readBytes_length (m : Memory) (a n : Nat) : (m.readBytes a n).length = n := by
  induction n generalizing a with
  | zero => rfl
  | succ n ih => simp [Memory.readBytes, ih]

/-- Byte `k` of a stretch of memory. -/
theorem Memory.readBytes_getD (m : Memory) (a n k : Nat) (h : k < n) : (m.readBytes a n).getD k 0 = m.read (a + k) := by
  induction n generalizing a k with
  | zero => omega
  | succ n ih =>
    cases k with
    | zero => simp [Memory.readBytes]
    | succ k =>
      simp only [Memory.readBytes, List.getD_cons_succ]
      rw [ih _ _ (by omega), show a + 1 + k = a + (k + 1) by omega]

/-- Two stretches of memory that agree byte by byte are the same list. -/
theorem Memory.readBytes_congr {m m' : Memory} {a n : Nat} (h : ∀ k, k < n → m'.read (a + k) = m.read (a + k)) :
    m'.readBytes a n = m.readBytes a n := by
  induction n generalizing a with
  | zero => rfl
  | succ n ih =>
    simp only [Memory.readBytes]
    rw [show m'.read a = m.read a from h 0 (by omega), ih fun k hk => by simpa [Nat.add_assoc, Nat.add_comm 1] using h (k + 1) (by omega)]

/-- The first bytes of a stretch of memory. -/
theorem Memory.readBytes_take (m : Memory) (a n k : Nat) (h : k ≤ n) : (m.readBytes a n).take k = m.readBytes a k := by
  induction n generalizing a k with
  | zero => obtain rfl : k = 0 := by omega
            rfl
  | succ n ih =>
    cases k with
    | zero => rfl
    | succ k => simp only [Memory.readBytes, List.take_succ_cons, ih _ _ (Nat.le_of_succ_le_succ h)]

/-- The bytes just stored are the bytes read back. -/
theorem Memory.readBytes_writeBytes {m : Memory} (h : m.wf) (a : Nat) (bs : List Byte) :
    (m.writeBytes a bs).readBytes a bs.length = bs := by
  apply List.ext_getElem (by simp)
  intro k h1 h2
  have hg := Memory.readBytes_getD (m.writeBytes a bs) a bs.length k h2
  rw [Memory.read_writeBytes h, if_pos (by omega), Nat.add_sub_cancel_left] at hg
  rwa [List.getD_eq_getElem _ _ h1, List.getD_eq_getElem _ _ h2] at hg

/-- A word stored is the word read back (20_memory.md R61). -/
theorem Memory.readWord_writeLE {m : Memory} (h : m.wf) (a : Nat) (v : Word) : (m.writeLE a 8 v).readWord a = v := by
  have := Memory.readBytes_writeBytes h a (wordBytes v)
  rw [wordBytes_length] at this
  unfold Memory.readWord Memory.writeLE
  exact (congrArg wordOfBytes this).trans (wordOfBytes_wordBytes v)

/-- Bytes outside a store are as before (20_memory.md R57). -/
theorem Memory.read_writeLE_outside {m : Memory} (h : m.wf) {a n b : Nat} (v : Word) (hb : b < a ∨ a + n ≤ b) :
    (m.writeLE a n v).read b = m.read b := by
  unfold Memory.writeLE
  rw [Memory.read_writeBytes h, if_neg (by rw [bytesLE_length]; omega)]

/-- A byte inside a store (20_memory.md R57). -/
theorem Memory.read_writeLE_inside {m : Memory} (h : m.wf) {a n k : Nat} (v : Word) (hk : k < n) :
    (m.writeLE a n v).read (a + k) = v.extractLsb' (8 * k) 8 := by
  unfold Memory.writeLE
  rw [Memory.read_writeBytes h, if_pos (by rw [bytesLE_length]; omega), Nat.add_sub_cancel_left, bytesLE_getD _ _ _ hk]
  apply BitVec.eq_of_toNat_eq
  simp only [BitVec.toNat_ofNat, BitVec.extractLsb'_toNat, Nat.shiftRight_eq_div_pow, Nat.pow_mul]

/-- An address listed after a store was listed before or is inside it. -/
theorem Memory.mem_writeLE {m : Memory} {a n : Nat} {v : Word} {c : Host.Cell} (h : c ∈ m.writeLE a n v) :
    c ∈ m ∨ (a ≤ c.1 ∧ c.1 < a + n) := by
  have := Memory.mem_writeBytes h
  rwa [bytesLE_length] at this

/-- The bytes of a loaded word are the bytes read (20_memory.md R56). -/
theorem Memory.wordBytes_readWord (m : Memory) (a : Nat) : wordBytes (m.readWord a) = m.readBytes a 8 :=
  wordBytes_wordOfBytes _ (Memory.readBytes_length _ _ _)

end Sys2Proof.Machine
end

