-- ==== Sys2Proof/Laws/Decode.lean ====
section
/-! SUPPORT. The laws of the encoder and the decoder: the tables invert each other, what each check of the decoder answers, and
the lengths. -/

namespace Sys2Proof

open Sys2Proof.Machine

/-! ## The tables -/

@[simp] theorem regOf_code (r : Reg) : regOf r.code = some r := by cases r <;> rfl
@[simp] theorem regOf_regField (b : Option Reg) : regOf (regField b) = b := by cases b with
  | none => rfl
  | some r => exact regOf_code r

/-- A field that names a register is that register's code (10_state.md R21). -/
theorem code_of_regOf {c : BitVec 4} {r : Reg} (h : regOf c = some r) : r.code = c := by
  revert c r; decide

/-- Only the sentinel names no register (10_state.md R22). -/
theorem regOf_eq_none {c : BitVec 4} : regOf c = none ↔ c = rnone := by
  revert c; decide

theorem regField_regOf (c : BitVec 4) : regField (regOf c) = c := by
  revert c; decide

@[simp] theorem condOf_code (c : Cond) : condOf c.code = some c := by cases c <;> rfl
@[simp] theorem aluOpOf_code (op : AluOp) : aluOpOf op.code = some op := by cases op <;> rfl

@[simp] theorem hiNibble_byteOf (h l : BitVec 4) : hiNibble (byteOf h l) = h := by revert h l; decide
@[simp] theorem loNibble_byteOf (h l : BitVec 4) : loNibble (byteOf h l) = l := by revert h l; decide
@[simp] theorem byteOf_nibbles (b : Byte) : byteOf (hiNibble b) (loNibble b) = b := by revert b; decide

/-- The opcode byte of an opcode is read back (30_encoding.md R95). -/
@[simp] theorem decodeOpcode_byteOf (op : Opcode) : decodeOpcode (byteOf op.icode op.ifun) = .ok op := by
  cases op with
  | cmov c => cases c <;> rfl
  | opq o => cases o <;> rfl
  | jump c => cases c <;> rfl
  | iotrap n => revert n; decide
  | _ => rfl

/-- A legal opcode byte is the byte of its opcode (30_encoding.md R87, R95). -/
theorem byteOf_of_decodeOpcode {b0 : Byte} {op : Opcode} (h : decodeOpcode b0 = .ok op) :
    byteOf op.icode op.ifun = b0 := by
  have key : ∀ b : Byte, (match decodeOpcode b with
      | .ok op => byteOf op.icode op.ifun == b
      | .error _ => true) = true := by decide
  have := key b0
  rw [h] at this
  exact eq_of_beq this

/-! ## The decoder's checks -/

/-- The opcode check fails with I1 or I2 only. -/
theorem decodeOpcode_error {b0 : Byte} {f : DecodeFault} (h : decodeOpcode b0 = .error f) :
    f = .undefinedFamily ∨ f = .subFunctionOutOfRange := by
  have key : ∀ b : Byte, (match decodeOpcode b with
      | .ok _ => true
      | .error f => f == .undefinedFamily || f == .subFunctionOutOfRange) = true := by decide
  have := key b0
  rw [h] at this
  simpa using this

/-- The register-field check fails with I3 only. -/
theorem decodeOperands_error {op : Opcode} {rest : List Byte} {f : DecodeFault}
    (h : decodeOperands op rest = .error f) : f = .registerConstraint := by
  have hc : ∀ o : Option Instr, constrained o = .error f → f = .registerConstraint := by
    intro o ho
    cases o with
    | none => exact (Except.error.inj ho).symm
    | some i => cases ho
  cases op <;> first | exact hc _ h | cases h

theorem decode_nil : decode [] = .error .startOutOfBounds := rfl

theorem decode_of_opcode_error {b0 : Byte} {f : DecodeFault} (h : decodeOpcode b0 = .error f) (rest : List Byte) :
    decode (b0 :: rest) = .error f := by simp only [decode, h]

theorem decode_of_short {b0 : Byte} {op : Opcode} {rest : List Byte} (h : decodeOpcode b0 = .ok op)
    (hl : rest.length + 1 < op.length) : decode (b0 :: rest) = .error .spanOutOfBounds := by
  simp only [decode, h, if_pos hl]

theorem decode_of_span {b0 : Byte} {op : Opcode} {rest : List Byte} (h : decodeOpcode b0 = .ok op)
    (hl : op.length ≤ rest.length + 1) : decode (b0 :: rest) = decodeOperands op rest := by
  simp only [decode, h, if_neg (Nat.not_lt.2 hl)]

/-- Everything a decode can answer, in the order of its checks (60_exceptions.md R257). -/
theorem decode_cases (bs : List Byte) :
    (bs = [] ∧ decode bs = .error .startOutOfBounds) ∨
    ∃ b0 rest, bs = b0 :: rest ∧
      ((∃ f, decodeOpcode b0 = .error f ∧ decode bs = .error f) ∨
       ∃ op, decodeOpcode b0 = .ok op ∧
        ((rest.length + 1 < op.length ∧ decode bs = .error .spanOutOfBounds) ∨
         (op.length ≤ rest.length + 1 ∧ decode bs = decodeOperands op rest))) := by
  cases bs with
  | nil => exact .inl ⟨rfl, rfl⟩
  | cons b0 rest =>
    refine .inr ⟨b0, rest, rfl, ?_⟩
    cases h : decodeOpcode b0 with
    | error f => exact .inl ⟨f, rfl, decode_of_opcode_error h rest⟩
    | ok op =>
      refine .inr ⟨op, rfl, ?_⟩
      by_cases hl : rest.length + 1 < op.length
      · exact .inl ⟨hl, decode_of_short h hl⟩
      · exact .inr ⟨Nat.le_of_not_lt hl, decode_of_span h (Nat.le_of_not_lt hl)⟩

/-- The constraint of a family is met by the instruction built. -/
theorem constrained_ok {o : Option Instr} {i : Instr} (h : constrained o = .ok i) : o = some i := by
  cases o with
  | none => cases h
  | some j => cases h; rfl

/-! ## Lengths and well-formedness -/

/-- The four lengths (30_encoding.md R81). -/
theorem Opcode.length_cases (op : Opcode) : op.length = 1 ∨ op.length = 2 ∨ op.length = 9 ∨ op.length = 10 := by
  cases op <;> simp [Opcode.length]

theorem Instr.length_cases (i : Instr) : i.length = 1 ∨ i.length = 2 ∨ i.length = 9 ∨ i.length = 10 :=
  i.opcode.length_cases

theorem Instr.length_le (i : Instr) : i.length ≤ maxLength := by
  have := i.length_cases
  unfold maxLength
  omega

theorem Instr.length_pos (i : Instr) : 1 ≤ i.length := by
  have := i.length_cases
  omega

/-- An encoding has the instruction's length (30_encoding.md R81). -/
theorem encode_length (i : Instr) : (encode i).length = i.length := by
  cases i <;> simp [encode, Instr.length, Instr.opcode, Opcode.length]

/-- Every instruction has well-formed fields (10_state.md R34). -/
theorem Instr.wellFormed_eq_true (i : Instr) : i.wellFormed = true := by
  have hr : ∀ r : Reg, (r.code == rnone) = false := by intro r; cases r <;> rfl
  cases i <;>
    simp [Instr.wellFormed, Instr.fields, Fields.wellFormed, Fields.definedFamily, Fields.subFunctionInRange,
      Fields.registersLegal, Instr.opcode, Opcode.icode, Opcode.ifun, Cond.code, AluOp.code, maxIfun, Instr.regFields, hr, bne]

/-! ## The parts of an encoding -/

/-- The constant after the opcode bytes is read back, whatever follows. -/
theorem wordOfBytes_take (v : Word) (rest : List Byte) : wordOfBytes ((wordBytes v ++ rest).take 8) = v := by
  rw [List.take_append_of_le_length (by simp), List.take_of_length_le (by simp), wordOfBytes_wordBytes]

/-- A register byte is the byte of the registers it names (30_encoding.md R89). -/
theorem byteOf_regFields {b1 : Byte} {a b : Option Reg} (h1 : regOf (hiNibble b1) = a) (h2 : regOf (loNibble b1) = b) :
    byteOf (regField a) (regField b) = b1 := by
  rw [← h1, ← h2, regField_regOf, regField_regOf, byteOf_nibbles]

/-- An encoding by its format: the opcode byte, then nothing, the register byte, the constant, or both (30_encoding.md R83). -/
theorem encode_eq (i : Instr) : ∃ tl, encode i = byteOf i.opcode.icode i.opcode.ifun :: tl ∧
    (i.length = 1 → tl = []) ∧ (i.length = 2 → tl = [byteOf i.regFields.1 i.regFields.2]) ∧
    (i.length = 9 → tl = wordBytes i.const) ∧
    (i.length = 10 → tl = byteOf i.regFields.1 i.regFields.2 :: wordBytes i.const) := by
  unfold encode
  rcases i.length_cases with h | h | h | h <;> simp [h]

/-- The register-field check does not look at the constant (30_encoding.md R93, R103). -/
theorem instrOf_error_congr {op : Opcode} {a b : Option Reg} {c : Word} {f : DecodeFault} (h : instrOf op a b c = .error f)
    (c' : Word) : instrOf op a b c' = .error f := by
  cases op <;> cases a <;> cases b <;> first | exact h | cases h

/-- A register-constraint fault depends on the register byte alone (30_encoding.md R93, R103). -/
theorem decodeOperands_error_congr {op : Opcode} {rest rest' : List Byte} {f : DecodeFault}
    (h : decodeOperands op rest = .error f) (he : rest'.headD 0 = rest.headD 0) : decodeOperands op rest' = .error f := by
  unfold decodeOperands at h ⊢
  rw [he]
  exact instrOf_error_congr h _

/-! ## The opcode table -/

/-- What a row looks at: the first byte of an 8-bit row, the first two of a 16-bit row (30_encoding.md R97). -/
theorem TableRow.matchesBytes_take (r : TableRow) (bs : List Byte) (n : Nat) (h : (if r.wide then 2 else 1) ≤ n) :
    r.matchesBytes (bs.take n) = r.matchesBytes bs := by
  unfold TableRow.matchesBytes
  cases hw : r.wide <;> rw [hw] at h <;> simp at h
  · obtain ⟨n, rfl⟩ : ∃ k, n = k + 1 := ⟨n - 1, by omega⟩
    cases bs <;> rfl
  · obtain ⟨n, rfl⟩ : ∃ k, n = k + 2 := ⟨n - 2, by omega⟩
    rcases bs with _ | ⟨b, _ | ⟨c, t⟩⟩ <;> rfl

/-- A mask and pattern over `b0 * 256 + b1` are one for each byte (30_encoding.md R97). -/
theorem bytes_of_masked {b0 b1 : Byte} {m p : BitVec 16} (h : (b0 ++ b1 : BitVec 16) &&& m = p) :
    b0 &&& m.extractLsb' 8 8 = p.extractLsb' 8 8 ∧ b1 &&& m.extractLsb' 0 8 = p.extractLsb' 0 8 := by
  subst h
  constructor <;> apply BitVec.eq_of_getLsbD_eq <;> intro k hk
  · have hb : (b0 ++ b1 : BitVec 16).getLsbD (8 + k) = b0.getLsbD k := by rw [BitVec.getLsbD_append]; simp
    simp only [BitVec.getLsbD_and, BitVec.getLsbD_extractLsb', hb]
    simp [hk]
  · have hb : (b0 ++ b1 : BitVec 16).getLsbD k = b1.getLsbD k := by rw [BitVec.getLsbD_append]; simp [hk]
    simp only [BitVec.getLsbD_and, BitVec.getLsbD_extractLsb', Nat.zero_add, hb]
    simp [hk]

/-- A field that is not the sentinel names a register (10_state.md R22). -/
theorem regOf_of_ne_rnone {c : BitVec 4} (h : (c != rnone) = true) : ∃ r, regOf c = some r := by
  cases hr : regOf c with
  | none => rw [regOf_eq_none] at hr; simp [hr] at h
  | some r => exact ⟨r, rfl⟩

end Sys2Proof
end

