-- ==== Sys2Proof/Laws/State.lean ====
section
/-! SUPPORT. One lemma for each field under each update, so that no later proof unfolds a record update; the register file's
read-after-write; the named predicates of a state after an update. -/

namespace Sys2Proof.Machine

@[simp] theorem State.setReg_pc (s : State) (r : Reg) (v : Word) : (s.setReg r v).pc = s.pc := rfl
@[simp] theorem State.setReg_flags (s : State) (r : Reg) (v : Word) : (s.setReg r v).flags = s.flags := rfl
@[simp] theorem State.setReg_stat (s : State) (r : Reg) (v : Word) : (s.setReg r v).stat = s.stat := rfl
@[simp] theorem State.setReg_mem (s : State) (r : Reg) (v : Word) : (s.setReg r v).mem = s.mem := rfl
@[simp] theorem State.setReg_config (s : State) (r : Reg) (v : Word) : (s.setReg r v).config = s.config := rfl
@[simp] theorem State.setReg_lineBuffer (s : State) (r : Reg) (v : Word) : (s.setReg r v).lineBuffer = s.lineBuffer := rfl
@[simp] theorem State.setReg_stdout (s : State) (r : Reg) (v : Word) : (s.setReg r v).stdout = s.stdout := rfl
@[simp] theorem State.setReg_inputDraws (s : State) (r : Reg) (v : Word) : (s.setReg r v).inputDraws = s.inputDraws := rfl
@[simp] theorem State.setReg_outputDraws (s : State) (r : Reg) (v : Word) : (s.setReg r v).outputDraws = s.outputDraws := rfl
@[simp] theorem State.setReg_byteAt (s : State) (r : Reg) (v : Word) (k : Nat) : (s.setReg r v).byteAt k = s.byteAt k := rfl

@[simp] theorem State.setPc_regs (s : State) (v : Word) : (s.setPc v).regs = s.regs := rfl
@[simp] theorem State.setPc_pc (s : State) (v : Word) : (s.setPc v).pc = v := rfl
@[simp] theorem State.setPc_flags (s : State) (v : Word) : (s.setPc v).flags = s.flags := rfl
@[simp] theorem State.setPc_stat (s : State) (v : Word) : (s.setPc v).stat = s.stat := rfl
@[simp] theorem State.setPc_mem (s : State) (v : Word) : (s.setPc v).mem = s.mem := rfl
@[simp] theorem State.setPc_config (s : State) (v : Word) : (s.setPc v).config = s.config := rfl
@[simp] theorem State.setPc_lineBuffer (s : State) (v : Word) : (s.setPc v).lineBuffer = s.lineBuffer := rfl
@[simp] theorem State.setPc_stdout (s : State) (v : Word) : (s.setPc v).stdout = s.stdout := rfl
@[simp] theorem State.setPc_inputDraws (s : State) (v : Word) : (s.setPc v).inputDraws = s.inputDraws := rfl
@[simp] theorem State.setPc_outputDraws (s : State) (v : Word) : (s.setPc v).outputDraws = s.outputDraws := rfl
@[simp] theorem State.setPc_reg (s : State) (v : Word) (q : Reg) : (s.setPc v).reg q = s.reg q := rfl
@[simp] theorem State.setPc_byteAt (s : State) (v : Word) (k : Nat) : (s.setPc v).byteAt k = s.byteAt k := rfl

@[simp] theorem State.setFlags_regs (s : State) (f : Flags) : (s.setFlags f).regs = s.regs := rfl
@[simp] theorem State.setFlags_pc (s : State) (f : Flags) : (s.setFlags f).pc = s.pc := rfl
@[simp] theorem State.setFlags_flags (s : State) (f : Flags) : (s.setFlags f).flags = f := rfl
@[simp] theorem State.setFlags_stat (s : State) (f : Flags) : (s.setFlags f).stat = s.stat := rfl
@[simp] theorem State.setFlags_mem (s : State) (f : Flags) : (s.setFlags f).mem = s.mem := rfl
@[simp] theorem State.setFlags_config (s : State) (f : Flags) : (s.setFlags f).config = s.config := rfl
@[simp] theorem State.setFlags_lineBuffer (s : State) (f : Flags) : (s.setFlags f).lineBuffer = s.lineBuffer := rfl
@[simp] theorem State.setFlags_stdout (s : State) (f : Flags) : (s.setFlags f).stdout = s.stdout := rfl
@[simp] theorem State.setFlags_inputDraws (s : State) (f : Flags) : (s.setFlags f).inputDraws = s.inputDraws := rfl
@[simp] theorem State.setFlags_outputDraws (s : State) (f : Flags) : (s.setFlags f).outputDraws = s.outputDraws := rfl
@[simp] theorem State.setFlags_reg (s : State) (f : Flags) (q : Reg) : (s.setFlags f).reg q = s.reg q := rfl
@[simp] theorem State.setFlags_byteAt (s : State) (f : Flags) (k : Nat) : (s.setFlags f).byteAt k = s.byteAt k := rfl

@[simp] theorem State.setStat_regs (s : State) (v : Status) : (s.setStat v).regs = s.regs := rfl
@[simp] theorem State.setStat_pc (s : State) (v : Status) : (s.setStat v).pc = s.pc := rfl
@[simp] theorem State.setStat_flags (s : State) (v : Status) : (s.setStat v).flags = s.flags := rfl
@[simp] theorem State.setStat_stat (s : State) (v : Status) : (s.setStat v).stat = v := rfl
@[simp] theorem State.setStat_mem (s : State) (v : Status) : (s.setStat v).mem = s.mem := rfl
@[simp] theorem State.setStat_config (s : State) (v : Status) : (s.setStat v).config = s.config := rfl
@[simp] theorem State.setStat_lineBuffer (s : State) (v : Status) : (s.setStat v).lineBuffer = s.lineBuffer := rfl
@[simp] theorem State.setStat_stdout (s : State) (v : Status) : (s.setStat v).stdout = s.stdout := rfl
@[simp] theorem State.setStat_inputDraws (s : State) (v : Status) : (s.setStat v).inputDraws = s.inputDraws := rfl
@[simp] theorem State.setStat_outputDraws (s : State) (v : Status) : (s.setStat v).outputDraws = s.outputDraws := rfl
@[simp] theorem State.setStat_reg (s : State) (v : Status) (q : Reg) : (s.setStat v).reg q = s.reg q := rfl
@[simp] theorem State.setStat_byteAt (s : State) (v : Status) (k : Nat) : (s.setStat v).byteAt k = s.byteAt k := rfl

@[simp] theorem State.setMem_regs (s : State) (m : Memory) : (s.setMem m).regs = s.regs := rfl
@[simp] theorem State.setMem_pc (s : State) (m : Memory) : (s.setMem m).pc = s.pc := rfl
@[simp] theorem State.setMem_flags (s : State) (m : Memory) : (s.setMem m).flags = s.flags := rfl
@[simp] theorem State.setMem_stat (s : State) (m : Memory) : (s.setMem m).stat = s.stat := rfl
@[simp] theorem State.setMem_mem (s : State) (m : Memory) : (s.setMem m).mem = m := rfl
@[simp] theorem State.setMem_config (s : State) (m : Memory) : (s.setMem m).config = s.config := rfl
@[simp] theorem State.setMem_lineBuffer (s : State) (m : Memory) : (s.setMem m).lineBuffer = s.lineBuffer := rfl
@[simp] theorem State.setMem_stdout (s : State) (m : Memory) : (s.setMem m).stdout = s.stdout := rfl
@[simp] theorem State.setMem_inputDraws (s : State) (m : Memory) : (s.setMem m).inputDraws = s.inputDraws := rfl
@[simp] theorem State.setMem_outputDraws (s : State) (m : Memory) : (s.setMem m).outputDraws = s.outputDraws := rfl
@[simp] theorem State.setMem_reg (s : State) (m : Memory) (q : Reg) : (s.setMem m).reg q = s.reg q := rfl
@[simp] theorem State.setMem_byteAt (s : State) (m : Memory) (k : Nat) : (s.setMem m).byteAt k = m.read k := rfl

@[simp] theorem State.drawInput_regs (s : State) : s.drawInput.regs = s.regs := rfl
@[simp] theorem State.drawInput_pc (s : State) : s.drawInput.pc = s.pc := rfl
@[simp] theorem State.drawInput_flags (s : State) : s.drawInput.flags = s.flags := rfl
@[simp] theorem State.drawInput_stat (s : State) : s.drawInput.stat = s.stat := rfl
@[simp] theorem State.drawInput_mem (s : State) : s.drawInput.mem = s.mem := rfl
@[simp] theorem State.drawInput_config (s : State) : s.drawInput.config = s.config := rfl
@[simp] theorem State.drawInput_lineBuffer (s : State) : s.drawInput.lineBuffer = s.lineBuffer := rfl
@[simp] theorem State.drawInput_stdout (s : State) : s.drawInput.stdout = s.stdout := rfl
@[simp] theorem State.drawInput_outputDraws (s : State) : s.drawInput.outputDraws = s.outputDraws := rfl
@[simp] theorem State.drawInput_inputDraws (s : State) : s.drawInput.inputDraws = s.inputDraws + 1 := rfl
@[simp] theorem State.drawInput_reg (s : State) (q : Reg) : s.drawInput.reg q = s.reg q := rfl
@[simp] theorem State.drawInput_byteAt (s : State) (k : Nat) : s.drawInput.byteAt k = s.byteAt k := rfl

/-- Two registers with one place are one register (10_state.md R20: no aliases). -/
theorem regIndex_injective : Function.Injective regIndex := by
  intro a b h
  cases a <;> cases b <;> first | rfl | exact absurd h (by decide)

@[simp] theorem State.setReg_reg (s : State) (r : Reg) (v : Word) (q : Reg) :
    (s.setReg r v).reg q = if q = r then v else s.reg q := by
  unfold State.setReg State.reg Vector.get
  by_cases h : q = r
  · subst h; rw [if_pos rfl]; exact Vector.getElem_set_self (regIndex q).isLt
  · have hne : (regIndex r).val ≠ (regIndex q).val := fun e => h (regIndex_injective (Fin.ext e)).symm
    simp only [if_neg h]
    exact Vector.getElem_set_ne (regIndex r).isLt (regIndex q).isLt hne

/-- Writing a register with what it holds changes nothing. -/
theorem State.setReg_self (s : State) (r : Reg) : s.setReg r (s.reg r) = s := by
  unfold State.setReg State.reg
  rw [show s.regs.set (regIndex r) (s.regs.get (regIndex r)) = s.regs from Vector.set_getElem_self (regIndex r).isLt]

/-- `valP` of an instruction of one, two, nine or ten bytes, as the rules write it (10_state.md R26). -/
theorem State.valP_eq (s : State) : s.valP 1 = s.pc + 1 ∧ s.valP 2 = s.pc + 2 ∧ s.valP 9 = s.pc + 9 ∧ s.valP 10 = s.pc + 10 :=
  ⟨rfl, rfl, rfl, rfl⟩

end Sys2Proof.Machine
end

