-- ==== Sys2Proof/Laws/Ops.lean ====
section
/-! SUPPORT. What each shared operation can do, said once: the two data accesses, the end-of-step check, taking a decode fault,
the common rules of the families, the kinds of trap, and one step. -/

namespace Sys2Proof.Machine

/-! ## Data accesses, the end of a step, decode faults -/

theorem State.storeThen_inBounds {s : State} {a : Word} (h : s.inBounds a 8) (v : Word) (k : State → State) :
    s.storeThen a v k = k (s.setMem (s.mem.writeLE a.toNat 8 v)) := if_pos h

theorem State.storeThen_outOfBounds {s : State} {a : Word} (h : ¬ s.inBounds a 8) (v : Word) (k : State → State) :
    s.storeThen a v k = s.setStat .addressFault := if_neg h

theorem State.loadThen_inBounds {s : State} {a : Word} (h : s.inBounds a 8) (k : Word → State → State) :
    s.loadThen a k = k (s.mem.readWord a.toNat) s := if_pos h

theorem State.loadThen_outOfBounds {s : State} {a : Word} (h : ¬ s.inBounds a 8) (k : Word → State → State) :
    s.loadThen a k = s.setStat .addressFault := if_neg h

/-- A data store answers the stored state continued, or the fault (40_execution_model.md R132). -/
theorem State.storeThen_cases (s : State) (a v : Word) (k : State → State) :
    (s.inBounds a 8 ∧ s.storeThen a v k = k (s.setMem (s.mem.writeLE a.toNat 8 v))) ∨
    (¬ s.inBounds a 8 ∧ s.storeThen a v k = s.setStat .addressFault) := by
  by_cases h : s.inBounds a 8
  · exact .inl ⟨h, State.storeThen_inBounds h v k⟩
  · exact .inr ⟨h, State.storeThen_outOfBounds h v k⟩

/-- A data load answers the state continued with the word, or the fault (40_execution_model.md R132). -/
theorem State.loadThen_cases (s : State) (a : Word) (k : Word → State → State) :
    (s.inBounds a 8 ∧ s.loadThen a k = k (s.mem.readWord a.toNat) s) ∨
    (¬ s.inBounds a 8 ∧ s.loadThen a k = s.setStat .addressFault) := by
  by_cases h : s.inBounds a 8
  · exact .inl ⟨h, State.loadThen_inBounds h k⟩
  · exact .inr ⟨h, State.loadThen_outOfBounds h k⟩

/-- The end-of-step check turns an AOK state whose pc is out of memory to ADDRESS_FAULT and leaves any other alone (R259). -/
theorem State.endOfStep_cases (s : State) :
    (s.stat = .aok ∧ s.config.memSize ≤ s.pc.toNat ∧ s.endOfStep = s.setStat .addressFault) ∨
    (¬ (s.stat = .aok ∧ s.config.memSize ≤ s.pc.toNat) ∧ s.endOfStep = s) := by
  by_cases h : s.stat = .aok ∧ s.config.memSize ≤ s.pc.toNat
  · exact .inl ⟨h.1, h.2, if_pos h⟩
  · exact .inr ⟨h, if_neg h⟩

@[simp] theorem State.endOfStep_flags (s : State) : s.endOfStep.flags = s.flags := by
  rcases s.endOfStep_cases with ⟨-, -, h⟩ | ⟨-, h⟩ <;> (rw [h]; try rfl)
@[simp] theorem State.endOfStep_pc (s : State) : s.endOfStep.pc = s.pc := by
  rcases s.endOfStep_cases with ⟨-, -, h⟩ | ⟨-, h⟩ <;> (rw [h]; try rfl)
@[simp] theorem State.endOfStep_mem (s : State) : s.endOfStep.mem = s.mem := by
  rcases s.endOfStep_cases with ⟨-, -, h⟩ | ⟨-, h⟩ <;> (rw [h]; try rfl)
@[simp] theorem State.endOfStep_regs (s : State) : s.endOfStep.regs = s.regs := by
  rcases s.endOfStep_cases with ⟨-, -, h⟩ | ⟨-, h⟩ <;> (rw [h]; try rfl)
@[simp] theorem State.endOfStep_config (s : State) : s.endOfStep.config = s.config := by
  rcases s.endOfStep_cases with ⟨-, -, h⟩ | ⟨-, h⟩ <;> (rw [h]; try rfl)

/-- The check leaves a terminal status alone (R251). -/
theorem State.endOfStep_of_ended {s : State} (h : s.stat ≠ .aok) : s.endOfStep = s := if_neg fun e => h e.1

theorem decodeStatus_ne_aok (f : DecodeFault) : decodeStatus f ≠ .aok := by cases f <;> decide
theorem decodeStatus_ne_halted (f : DecodeFault) : decodeStatus f ≠ .halted := by cases f <;> decide

/-- A decode fault writes the status and the pc only (60_exceptions.md R256, R258). -/
theorem State.takeDecodeFault_eq (s : State) (f : DecodeFault) :
    s.takeDecodeFault f = { s with stat := decodeStatus f, pc := s.pcAfterDecodeFault f } := rfl

/-- A decode fault is not touched by the end-of-step check (40_execution_model.md R130). -/
theorem State.endOfStep_takeDecodeFault (s : State) (f : DecodeFault) :
    (s.takeDecodeFault f).endOfStep = s.takeDecodeFault f :=
  State.endOfStep_of_ended (by rw [State.takeDecodeFault_eq]; exact decodeStatus_ne_aok f)

/-! ## The common rules of the families -/

/-- A conditional move is the move or only the pc (42_moves.md R170). -/
theorem State.condMove_eq (s : State) (c : Cond) (rA rB : Reg) :
    s.condMove c rA rB = if condHolds s.flags c then (s.setReg rB (s.reg rA)).setPc (s.valP 2) else s.setPc (s.valP 2) := by
  unfold State.condMove
  split <;> rfl

/-- The host side of IOTRAP is what an input trap changes beside its answer (46_iotrap.md R233). -/
theorem State.inputAnswered_cases (s : State) (n : Nat) (h : Option Word) :
    (∃ v, h = some v ∧ s.inBounds s.config.trapSlot n ∧
      s.inputAnswered n h = (s.setMem (s.mem.writeLE s.config.trapSlot.toNat n v)).setPc (s.valP 1)) ∨
    (∃ v, h = some v ∧ ¬ s.inBounds s.config.trapSlot n ∧ s.inputAnswered n h = s.setStat .addressFault) ∨
    (h = none ∧ s.inputAnswered n h = (s.setStat .halted).setPc (s.valP 1)) := by
  cases h with
  | none => exact .inr (.inr ⟨rfl, rfl⟩)
  | some v =>
    by_cases hb : s.inBounds s.config.trapSlot n
    · exact .inl ⟨v, rfl, hb, if_pos hb⟩
    · exact .inr (.inl ⟨v, rfl, hb, if_neg hb⟩)

/-- Every trap is an output trap, an input trap of 1 or 8 bytes, the flush trap or the unrecognised one (46_iotrap.md R231). -/
theorem State.ioTrap_cases (s : State) (k : TrapKind) :
    ((k = .charOut ∨ k = .decOut ∨ k = .strOut) ∧ s.ioTrap k = s.outputTrap) ∨
    ((k = .charIn ∧ inputBytes k = 1 ∨ k = .decIn ∧ inputBytes k = 8) ∧ s.ioTrap k = s.inputTrap (inputBytes k)) ∨
    (k = .flush ∧ s.ioTrap k = s.flushTrap) ∨
    (k = .unrecognised ∧ s.ioTrap k = s.unrecognisedTrap) := by
  cases k <;> simp [State.ioTrap, inputBytes]

/-- An IOTRAP instruction runs the trap of its number's kind (46_iotrap.md R230). -/
theorem exec_of_trapNumber {i : Instr} {n : Fin 6} (h : trapNumber i = some n) (s : State) :
    exec i s = .next (s.ioTrap (s.trapKind n)) := by
  cases i <;> cases h <;> rfl

/-! ## Execution and the step -/

/-- Every instruction answers a next state, whatever the state and the operands. -/
theorem exec_answers_next (i : Instr) (s : State) : ∃ t, exec i s = .next t := by
  cases i <;> exact ⟨_, rfl⟩

theorem step_of_not_aok {s : State} (h : s.stat ≠ .aok) (t : State) : step s ≠ .next t := by
  unfold step
  cases hs : s.stat <;> first | exact absurd hs h | (intro e; cases e)

theorem step_of_aok {s : State} (h : s.stat = .aok) : step s = stepAok s := by
  unfold step; rw [h]

theorem step_of_decode_fault {s : State} {f : DecodeFault} (h : s.stat = .aok) (hf : s.fetch = .error f) :
    step s = .next (s.takeDecodeFault f) := by
  rw [step_of_aok h, stepAok, hf]
  exact congrArg Host.Outcome.next (s.endOfStep_takeDecodeFault f)

theorem step_of_fetch {s t : State} {i : Instr} (h : s.stat = .aok) (hf : s.fetch = .ok i) (ht : exec i s = .next t) :
    step s = .next t.endOfStep := by
  rw [step_of_aok h, stepAok, hf]
  simp only [ht]

/-- Everything a step can do (40_execution_model.md R130): from an AOK state only, a decode fault taken, or the decoded
instruction executed and the end-of-step check. -/
theorem step_cases {s t : State} (h : step s = .next t) :
    s.stat = .aok ∧
    ((∃ f, s.fetch = .error f ∧ t = s.takeDecodeFault f) ∨
     (∃ i u, s.fetch = .ok i ∧ exec i s = .next u ∧ t = u.endOfStep)) := by
  by_cases ha : s.stat = .aok
  · refine ⟨ha, ?_⟩
    cases hf : s.fetch with
    | error f =>
      rw [step_of_decode_fault ha hf] at h
      exact .inl ⟨f, rfl, (Host.Outcome.next.inj h).symm⟩
    | ok i =>
      obtain ⟨u, hu⟩ := exec_answers_next i s
      rw [step_of_fetch ha hf hu] at h
      exact .inr ⟨i, u, rfl, hu, (Host.Outcome.next.inj h).symm⟩
  · exact absurd h (step_of_not_aok ha t)

/-! ## Fetch -/

theorem State.fetchWindow_length (s : State) :
    s.fetchWindow.length = min maxLength (s.config.memSize - s.pc.toNat) := Memory.readBytes_length _ _ _

/-- The first bytes of the window are the bytes at the pc, as far as memory goes. -/
theorem State.fetchWindow_take {s : State} {n : Nat} (hn : n ≤ maxLength) (h : s.pc.toNat + n ≤ s.config.memSize) :
    s.fetchWindow.take n = s.mem.readBytes s.pc.toNat n :=
  Memory.readBytes_take _ _ _ _ (by omega)

/-- A window that starts in memory begins with the byte at the pc. -/
theorem State.fetchWindow_cons {s : State} (h : s.pc.toNat < s.config.memSize) :
    s.fetchWindow = s.byteAt s.pc.toNat ::
      s.mem.readBytes (s.pc.toNat + 1) (min maxLength (s.config.memSize - s.pc.toNat) - 1) := by
  have : min maxLength (s.config.memSize - s.pc.toNat) = (min maxLength (s.config.memSize - s.pc.toNat) - 1) + 1 := by
    unfold maxLength; omega
  unfold State.fetchWindow
  rw [this]
  rfl

/-- A legal opcode byte passes the opcode check, and its family has the table's length (30_encoding.md R95, R96, R99). -/
theorem decodeOpcode_of_legal {b0 : Byte} (h : b0 ∈ legalOpcodeBytes) :
    ∃ op, decodeOpcode b0 = .ok op ∧ op.length = lengthOfCode (hiNibble b0) := by
  have key : ∀ b : Byte, b ∈ legalOpcodeBytes → (match decodeOpcode b with
      | .ok op => op.length == lengthOfCode (hiNibble b)
      | .error _ => false) = true := by decide +kernel
  have := key b0 h
  cases ho : decodeOpcode b0 with
  | ok op => rw [ho] at this; exact ⟨op, rfl, eq_of_beq this⟩
  | error f => rw [ho] at this; cases this

end Sys2Proof.Machine
end

