-- ==== Sys2Proof/Laws/Exec.lean ====
section
/-! SUPPORT. Everything `exec` can do, in three shapes: an instruction with no data access and no trap, one with a data access,
an IOTRAP. A later proof splits an instruction by its shape and cites one of these. -/

namespace Sys2Proof.Machine

/-- An instruction with neither a data access nor a trap: registers, flags and the pc only (20_memory.md R51; 10_state.md R23, R26,
R29). -/
theorem exec_of_no_access {i : Instr} {s t : State} (h : exec i s = .next t) (hd : dataAddress i s = none)
    (ht : trapNumber i = none) :
    t.mem = s.mem ∧ t.config = s.config ∧ t.lineBuffer = s.lineBuffer ∧ t.stdout = s.stdout ∧
    t.inputDraws = s.inputDraws ∧ t.outputDraws = s.outputDraws ∧ t.stat = (if i = .halt then .halted else s.stat) ∧
    (writesFlags i = false → t.flags = s.flags) ∧ (∀ r, r ∉ writtenRegs i → t.reg r = s.reg r) ∧ t.pc = pcAfter i s := by
  cases i <;> simp [dataAddress, trapNumber] at hd ht <;>
    (first
     | (cases h
        simp +contextual [State.arith, State.jump, writesFlags, writtenRegs, pcAfter, State.valP, State.condMove_eq, condHolds]
        done)
     | (cases h
        simp only [State.condMove_eq]
        split <;> simp_all [writesFlags, writtenRegs, pcAfter, State.valP, condHolds]))

/-- An instruction with a data access: the fault that changes only the status, or the access in bounds, with at most its eight
bytes stored (40_execution_model.md R132, 20_memory.md R54). -/
theorem exec_of_access {i : Instr} {s t : State} {a : Word} (h : exec i s = .next t) (hd : dataAddress i s = some a) :
    (¬ s.inBounds a 8 ∧ t = s.setStat .addressFault) ∨
    (s.inBounds a 8 ∧ t.config = s.config ∧ t.lineBuffer = s.lineBuffer ∧ t.stdout = s.stdout ∧
      t.inputDraws = s.inputDraws ∧ t.outputDraws = s.outputDraws ∧ t.stat = s.stat ∧ t.flags = s.flags ∧
      (∀ r, r ∉ writtenRegs i → t.reg r = s.reg r) ∧ t.pc = pcAfter i s ∧
      ((∃ v, storeSpan i s = some (a.toNat, 8) ∧ t.mem = s.mem.writeLE a.toNat 8 v) ∨
       (storeSpan i s = none ∧ t.mem = s.mem))) := by
  cases i <;> simp [dataAddress] at hd <;> subst hd <;> cases h
  case rmmovq rA rB d =>
    rcases s.storeThen_cases (s.effectiveAddress rB d) (s.reg rA) (fun t => t.setPc (s.valP 10)) with
      ⟨hb, e⟩ | ⟨hb, e⟩ <;> rw [e]
    · exact .inr (by simp [writtenRegs, pcAfter, State.valP, storeSpan, *])
    · exact .inl ⟨hb, rfl⟩
  case mrmovq rA rB d =>
    rcases s.loadThen_cases (s.effectiveAddress rB d) (fun v t => (t.setReg rA v).setPc (s.valP 10)) with
      ⟨hb, e⟩ | ⟨hb, e⟩ <;> rw [e]
    · exact .inr (by simp +contextual [writtenRegs, pcAfter, State.valP, storeSpan, trapNumber, *])
    · exact .inl ⟨hb, rfl⟩
  case call d =>
    rcases s.storeThen_cases s.pushSlot (s.valP 9) (fun t => (t.setReg .rsp s.pushSlot).setPc d) with
      ⟨hb, e⟩ | ⟨hb, e⟩ <;> rw [e]
    · exact .inr (by simp +contextual [writtenRegs, pcAfter, State.valP, storeSpan, *])
    · exact .inl ⟨hb, rfl⟩
  case ret =>
    rcases s.loadThen_cases s.popSlot (fun v t => (t.setReg .rsp s.popped).setPc v) with ⟨hb, e⟩ | ⟨hb, e⟩ <;> rw [e]
    · exact .inr (by simp +contextual [writtenRegs, pcAfter, storeSpan, trapNumber, *])
    · exact .inl ⟨hb, rfl⟩
  case pushq rA =>
    rcases s.storeThen_cases s.pushSlot (s.reg rA) (fun t => (t.setReg .rsp s.pushSlot).setPc (s.valP 2)) with
      ⟨hb, e⟩ | ⟨hb, e⟩ <;> rw [e]
    · exact .inr (by simp +contextual [writtenRegs, pcAfter, State.valP, storeSpan, *])
    · exact .inl ⟨hb, rfl⟩
  case popq rA =>
    rcases s.loadThen_cases s.popSlot (fun v t => ((t.setReg .rsp s.popped).setReg rA v).setPc (s.valP 2)) with
      ⟨hb, e⟩ | ⟨hb, e⟩ <;> rw [e]
    · exact .inr (by simp +contextual [writtenRegs, pcAfter, State.valP, storeSpan, trapNumber, *])
    · exact .inl ⟨hb, rfl⟩

/-- An IOTRAP: no register, no flag; an output or flush trap, an unrecognised one, or an input trap that the host answers with
the slot in bounds or out of bounds, or fails (46_iotrap.md R230 to R238). -/
theorem exec_of_trap {i : Instr} {s t : State} {n : Fin 6} (h : exec i s = .next t) (hn : trapNumber i = some n) :
    t.config = s.config ∧ t.regs = s.regs ∧ t.flags = s.flags ∧
    ((inputBytes (s.trapKind n) = 0 ∧ s.trapKind n ≠ .unrecognised ∧ t.stat = s.stat ∧ t.mem = s.mem ∧ t.pc = s.pc + 1) ∨
     (s.trapKind n = .unrecognised ∧ t.stat = .halted ∧ t.mem = s.mem ∧ t.pc = s.pc) ∨
     ((s.trapKind n = .charIn ∨ s.trapKind n = .decIn) ∧ inputBytes (s.trapKind n) ≠ 0 ∧
      ((∃ v, Config.hostAnswer s.inputDraws = some v ∧ s.inBounds s.config.trapSlot (inputBytes (s.trapKind n)) ∧
          t.stat = s.stat ∧ t.mem = s.mem.writeLE s.config.trapSlot.toNat (inputBytes (s.trapKind n)) v ∧ t.pc = s.pc + 1) ∨
       (∃ v, Config.hostAnswer s.inputDraws = some v ∧ ¬ s.inBounds s.config.trapSlot (inputBytes (s.trapKind n)) ∧
          t.stat = .addressFault ∧ t.mem = s.mem ∧ t.pc = s.pc) ∨
       (Config.hostAnswer s.inputDraws = none ∧ t.stat = .halted ∧ t.mem = s.mem ∧ t.pc = s.pc + 1)))) := by
  rw [exec_of_trapNumber hn] at h
  obtain rfl := Host.Outcome.next.inj h
  rcases s.ioTrap_cases (s.trapKind n) with ⟨hk, e⟩ | ⟨hk, e⟩ | ⟨hk, e⟩ | ⟨hk, e⟩
  · rw [e]
    refine ⟨rfl, rfl, rfl, .inl ⟨?_, ?_, rfl, rfl, rfl⟩⟩ <;> rcases hk with h | h | h <;> rw [h] <;> simp [inputBytes]
  · rw [e]
    have hk' : s.trapKind n = .charIn ∨ s.trapKind n = .decIn := hk.imp And.left And.left
    have h0 : inputBytes (s.trapKind n) ≠ 0 := by rcases hk with h | h <;> rw [h.2] <;> simp
    unfold State.inputTrap
    rcases s.drawInput.inputAnswered_cases (inputBytes (s.trapKind n)) (Config.hostAnswer s.inputDraws) with
      ⟨v, hv, hb, e'⟩ | ⟨v, hv, hb, e'⟩ | ⟨hv, e'⟩ <;> rw [e']
    · exact ⟨rfl, rfl, rfl, .inr (.inr ⟨hk', h0, .inl ⟨v, hv, hb, rfl, rfl, rfl⟩⟩)⟩
    · exact ⟨rfl, rfl, rfl, .inr (.inr ⟨hk', h0, .inr (.inl ⟨v, hv, hb, rfl, rfl, rfl⟩)⟩)⟩
    · exact ⟨rfl, rfl, rfl, .inr (.inr ⟨hk', h0, .inr (.inr ⟨hv, rfl, rfl, rfl⟩)⟩)⟩
  · rw [e]
    refine ⟨rfl, rfl, rfl, .inl ⟨?_, ?_, rfl, rfl, rfl⟩⟩ <;> rw [hk] <;> simp [inputBytes]
  · rw [e]
    exact ⟨rfl, rfl, rfl, .inr (.inl ⟨hk, rfl, rfl, rfl⟩)⟩

/-- The memory after any instruction is the memory before, or one store inside memory at the instruction's store span
(20_memory.md R51, R54). -/
theorem exec_memory {i : Instr} {s u : State} (hu : exec i s = .next u) :
    u.config = s.config ∧
    (u.mem = s.mem ∨ ∃ a n v, storeSpan i s = some (a, n) ∧ u.mem = s.mem.writeLE a n v ∧ a + n ≤ s.config.memSize) := by
  cases hn : trapNumber i with
  | some n =>
    obtain ⟨hc, -, -, h⟩ := exec_of_trap hu hn
    refine ⟨hc, ?_⟩
    rcases h with ⟨-, -, -, hm, -⟩ | ⟨-, -, hm, -⟩ | ⟨-, h0, ⟨v, -, hb, -, hm, -⟩ | ⟨v, -, -, -, hm, -⟩ | ⟨-, -, hm, -⟩⟩
    · exact .inl hm
    · exact .inl hm
    · refine .inr ⟨_, _, v, ?_, hm, hb⟩
      clear hu
      cases i <;> first | (cases hn; done) | (cases hn; simp [storeSpan, trapNumber, h0])
    · exact .inl hm
    · exact .inl hm
  | none =>
    cases hd : dataAddress i s with
    | none =>
      have := exec_of_no_access hu hd hn
      exact ⟨this.2.1, .inl this.1⟩
    | some a =>
      rcases exec_of_access hu hd with ⟨-, rfl⟩ | ⟨hb, hc, -, -, -, -, -, -, -, -, hm⟩
      · exact ⟨rfl, .inl rfl⟩
      · refine ⟨hc, ?_⟩
        rcases hm with ⟨v, hs, hm⟩ | ⟨-, hm⟩
        · exact .inr ⟨_, _, v, hs, hm, hb⟩
        · exact .inl hm

/-- A trap neither reads the flags nor lets them out (10_state.md R29). -/
theorem State.ioTrap_setFlags (s : State) (g f : Flags) (k : TrapKind) :
    ((s.setFlags g).ioTrap k).setFlags f = (s.ioTrap k).setFlags f := by
  have input : ∀ n, ((s.setFlags g).inputTrap n).setFlags f = (s.inputTrap n).setFlags f := by
    intro n
    unfold State.inputTrap
    rw [show (s.setFlags g).drawInput = s.drawInput.setFlags g from rfl, State.setFlags_inputDraws]
    generalize s.drawInput = d
    rcases (d.setFlags g).inputAnswered_cases n (Config.hostAnswer s.inputDraws) with
      ⟨v, hv, hb, e⟩ | ⟨v, hv, hb, e⟩ | ⟨hv, e⟩ <;>
    rcases d.inputAnswered_cases n (Config.hostAnswer s.inputDraws) with
      ⟨w, hw, hb', e'⟩ | ⟨w, hw, hb', e'⟩ | ⟨hw, e'⟩ <;>
    first
    | exact absurd hb' hb
    | exact absurd hb hb'
    | (rw [hv] at hw; cases hw; done)
    | (rw [hv] at hw; cases hw; rw [e, e']; rfl)
  cases k <;> first | rfl | exact input _

end Sys2Proof.Machine
end

