-- ==== Sys2Proof/Laws/PerInstr.lean ====
section
/-! SUPPORT. One family of statements, one lemma for each instruction: its encoding is one of its row of spec/opcode_table.json
(30_encoding.md R97), it has the row's length, and its fields are well-formed. -/

namespace Sys2Proof.Laws.OpcodeRow

/-- The encoding matches the row's pattern under its mask and its constraints, has the row's length, and the fields are well-formed. -/
def Statement (i : Instr) : Prop :=
  i.row.matchesBytes (encode i) = true ∧ (encode i).length = i.row.length ∧ i.wellFormed = true

theorem halt : Statement .halt := ⟨rfl, rfl, rfl⟩

theorem nop : Statement .nop := ⟨rfl, rfl, rfl⟩

theorem rrmovq (rA rB : Reg) : Statement (.rrmovq rA rB) := by
  refine ⟨?_, encode_length _, Instr.wellFormed_eq_true _⟩
  cases rA <;> cases rB <;> rfl

theorem cmovle (rA rB : Reg) : Statement (.cmovle rA rB) := by
  refine ⟨?_, encode_length _, Instr.wellFormed_eq_true _⟩
  cases rA <;> cases rB <;> rfl

theorem cmovl (rA rB : Reg) : Statement (.cmovl rA rB) := by
  refine ⟨?_, encode_length _, Instr.wellFormed_eq_true _⟩
  cases rA <;> cases rB <;> rfl

theorem cmove (rA rB : Reg) : Statement (.cmove rA rB) := by
  refine ⟨?_, encode_length _, Instr.wellFormed_eq_true _⟩
  cases rA <;> cases rB <;> rfl

theorem cmovne (rA rB : Reg) : Statement (.cmovne rA rB) := by
  refine ⟨?_, encode_length _, Instr.wellFormed_eq_true _⟩
  cases rA <;> cases rB <;> rfl

theorem cmovge (rA rB : Reg) : Statement (.cmovge rA rB) := by
  refine ⟨?_, encode_length _, Instr.wellFormed_eq_true _⟩
  cases rA <;> cases rB <;> rfl

theorem cmovg (rA rB : Reg) : Statement (.cmovg rA rB) := by
  refine ⟨?_, encode_length _, Instr.wellFormed_eq_true _⟩
  cases rA <;> cases rB <;> rfl

theorem irmovq (imm : Word) (rB : Reg) : Statement (.irmovq imm rB) := by
  refine ⟨?_, encode_length _, Instr.wellFormed_eq_true _⟩
  change TableRow.matchesBytes ⟨true, 0x30F0, 0xFFF0, 10, [.rBNotSentinel]⟩ [byteOf 3 0, byteOf rnone rB.code] = true
  cases rB <;> rfl

theorem rmmovq (rA : Reg) (rB : Option Reg) (disp : Word) : Statement (.rmmovq rA rB disp) := by
  refine ⟨?_, encode_length _, Instr.wellFormed_eq_true _⟩
  change TableRow.matchesBytes ⟨true, 0x4000, 0xFF00, 10, [.rANotSentinel]⟩ [byteOf 4 0, byteOf rA.code (regField rB)] = true
  cases rB with
  | none => cases rA <;> rfl
  | some r => cases rA <;> cases r <;> rfl

theorem mrmovq (rA : Reg) (rB : Option Reg) (disp : Word) : Statement (.mrmovq rA rB disp) := by
  refine ⟨?_, encode_length _, Instr.wellFormed_eq_true _⟩
  change TableRow.matchesBytes ⟨true, 0x5000, 0xFF00, 10, [.rANotSentinel]⟩ [byteOf 5 0, byteOf rA.code (regField rB)] = true
  cases rB with
  | none => cases rA <;> rfl
  | some r => cases rA <;> cases r <;> rfl

theorem addq (rA rB : Reg) : Statement (.addq rA rB) := by
  refine ⟨?_, encode_length _, Instr.wellFormed_eq_true _⟩
  cases rA <;> cases rB <;> rfl

theorem subq (rA rB : Reg) : Statement (.subq rA rB) := by
  refine ⟨?_, encode_length _, Instr.wellFormed_eq_true _⟩
  cases rA <;> cases rB <;> rfl

theorem andq (rA rB : Reg) : Statement (.andq rA rB) := by
  refine ⟨?_, encode_length _, Instr.wellFormed_eq_true _⟩
  cases rA <;> cases rB <;> rfl

theorem xorq (rA rB : Reg) : Statement (.xorq rA rB) := by
  refine ⟨?_, encode_length _, Instr.wellFormed_eq_true _⟩
  cases rA <;> cases rB <;> rfl

theorem jmp (dest : Word) : Statement (.jmp dest) := by
  refine ⟨?_, encode_length _, Instr.wellFormed_eq_true _⟩
  change TableRow.matchesBytes ⟨false, 0x70, 0xFF, 9, []⟩ [byteOf 7 0] = true
  rfl

theorem jle (dest : Word) : Statement (.jle dest) := by
  refine ⟨?_, encode_length _, Instr.wellFormed_eq_true _⟩
  change TableRow.matchesBytes ⟨false, 0x71, 0xFF, 9, []⟩ [byteOf 7 1] = true
  rfl

theorem jl (dest : Word) : Statement (.jl dest) := by
  refine ⟨?_, encode_length _, Instr.wellFormed_eq_true _⟩
  change TableRow.matchesBytes ⟨false, 0x72, 0xFF, 9, []⟩ [byteOf 7 2] = true
  rfl

theorem je (dest : Word) : Statement (.je dest) := by
  refine ⟨?_, encode_length _, Instr.wellFormed_eq_true _⟩
  change TableRow.matchesBytes ⟨false, 0x73, 0xFF, 9, []⟩ [byteOf 7 3] = true
  rfl

theorem jne (dest : Word) : Statement (.jne dest) := by
  refine ⟨?_, encode_length _, Instr.wellFormed_eq_true _⟩
  change TableRow.matchesBytes ⟨false, 0x74, 0xFF, 9, []⟩ [byteOf 7 4] = true
  rfl

theorem jge (dest : Word) : Statement (.jge dest) := by
  refine ⟨?_, encode_length _, Instr.wellFormed_eq_true _⟩
  change TableRow.matchesBytes ⟨false, 0x75, 0xFF, 9, []⟩ [byteOf 7 5] = true
  rfl

theorem jg (dest : Word) : Statement (.jg dest) := by
  refine ⟨?_, encode_length _, Instr.wellFormed_eq_true _⟩
  change TableRow.matchesBytes ⟨false, 0x76, 0xFF, 9, []⟩ [byteOf 7 6] = true
  rfl

theorem call (dest : Word) : Statement (.call dest) := by
  refine ⟨?_, encode_length _, Instr.wellFormed_eq_true _⟩
  change TableRow.matchesBytes ⟨false, 0x80, 0xFF, 9, []⟩ [byteOf 8 0] = true
  rfl

theorem ret : Statement .ret := ⟨rfl, rfl, rfl⟩

theorem pushq (rA : Reg) : Statement (.pushq rA) := by
  refine ⟨?_, encode_length _, Instr.wellFormed_eq_true _⟩
  cases rA <;> rfl

theorem popq (rA : Reg) : Statement (.popq rA) := by
  refine ⟨?_, encode_length _, Instr.wellFormed_eq_true _⟩
  cases rA <;> rfl

theorem iotrap0 : Statement .iotrap0 := ⟨rfl, rfl, rfl⟩

theorem iotrap1 : Statement .iotrap1 := ⟨rfl, rfl, rfl⟩

theorem iotrap2 : Statement .iotrap2 := ⟨rfl, rfl, rfl⟩

theorem iotrap3 : Statement .iotrap3 := ⟨rfl, rfl, rfl⟩

theorem iotrap4 : Statement .iotrap4 := ⟨rfl, rfl, rfl⟩

theorem iotrap5 : Statement .iotrap5 := ⟨rfl, rfl, rfl⟩

end Sys2Proof.Laws.OpcodeRow
end

