-- ==== Sys2Proof/Machine/Assembly.lean ====
section
/-! DEFINITION. The assembler form of an instruction as far as the spec fixes it: mnemonics (30_encoding.md R104), register tokens
(10_state.md R21), the order of the operands (30_encoding.md R105) and the form of a memory operand (R106). The text of a
constant is not given (R107), so a constant stays a number. No step uses this file. -/

namespace Sys2Proof.Machine

/-- The assembler token of a register (10_state.md R21). -/
def regToken : Reg → String
  | .rax => "%rax" | .rcx => "%rcx" | .rdx => "%rdx" | .rbx => "%rbx"
  | .rsp => "%rsp" | .rbp => "%rbp" | .rsi => "%rsi" | .rdi => "%rdi"
  | .r8 => "%r8" | .r9 => "%r9" | .r10 => "%r10" | .r11 => "%r11"
  | .r12 => "%r12" | .r13 => "%r13" | .r14 => "%r14"

/-- An operand as the assembler form shows it (30_encoding.md R105, R106). -/
inductive AsmOperand where
  /-- a register token -/
  | reg (r : Reg)
  /-- an immediate, `$V` -/
  | imm (v : Word)
  /-- `D(rB)`, or `D` alone when the base is absent -/
  | mem (disp : Word) (base : Option Reg)
  /-- a destination address -/
  | dest (a : Word)
  /-- the number of an IOTRAP -/
  | trap (n : Fin 6)
  deriving DecidableEq, Repr

/-- The mnemonic, one for each family and sub-function; the traps share one (30_encoding.md R104). -/
def mnemonic : Instr → String
  | .halt => "halt" | .nop => "nop"
  | .rrmovq _ _ => "rrmovq" | .cmovle _ _ => "cmovle" | .cmovl _ _ => "cmovl" | .cmove _ _ => "cmove"
  | .cmovne _ _ => "cmovne" | .cmovge _ _ => "cmovge" | .cmovg _ _ => "cmovg"
  | .irmovq _ _ => "irmovq" | .rmmovq _ _ _ => "rmmovq" | .mrmovq _ _ _ => "mrmovq"
  | .addq _ _ => "addq" | .subq _ _ => "subq" | .andq _ _ => "andq" | .xorq _ _ => "xorq"
  | .jmp _ => "jmp" | .jle _ => "jle" | .jl _ => "jl" | .je _ => "je" | .jne _ => "jne" | .jge _ => "jge" | .jg _ => "jg"
  | .call _ => "call" | .ret => "ret" | .pushq _ => "pushq" | .popq _ => "popq"
  | .iotrap0 => "iotrap" | .iotrap1 => "iotrap" | .iotrap2 => "iotrap"
  | .iotrap3 => "iotrap" | .iotrap4 => "iotrap" | .iotrap5 => "iotrap"

/-- The operands in the order the assembler form writes them (30_encoding.md R105). -/
def asmOperands : Instr → List AsmOperand
  | .rrmovq a b => [.reg a, .reg b]
  | .cmovle a b => [.reg a, .reg b]
  | .cmovl a b => [.reg a, .reg b]
  | .cmove a b => [.reg a, .reg b]
  | .cmovne a b => [.reg a, .reg b]
  | .cmovge a b => [.reg a, .reg b]
  | .cmovg a b => [.reg a, .reg b]
  | .addq a b => [.reg a, .reg b]
  | .subq a b => [.reg a, .reg b]
  | .andq a b => [.reg a, .reg b]
  | .xorq a b => [.reg a, .reg b]
  | .irmovq v b => [.imm v, .reg b]
  | .rmmovq a b d => [.reg a, .mem d b]
  | .mrmovq a b d => [.mem d b, .reg a]
  | .pushq a => [.reg a]
  | .popq a => [.reg a]
  | .jmp d => [.dest d]
  | .jle d => [.dest d]
  | .jl d => [.dest d]
  | .je d => [.dest d]
  | .jne d => [.dest d]
  | .jge d => [.dest d]
  | .jg d => [.dest d]
  | .call d => [.dest d]
  | .iotrap0 => [.trap 0]
  | .iotrap1 => [.trap 1]
  | .iotrap2 => [.trap 2]
  | .iotrap3 => [.trap 3]
  | .iotrap4 => [.trap 4]
  | .iotrap5 => [.trap 5]
  | .halt | .nop | .ret => []

end Sys2Proof.Machine
end

