-- ==== Sys2Proof/Tests/Slice0.lean ====
section
/-! SUPPORT. Tests of one step or one decode each, with the expected results of the spec's own vectors (95_test_vectors.md, named
V-...) or written out by hand from the rule named; and for every statement of Obligations.lean that has hypotheses a witness that
meets them. -/

namespace Sys2Proof.Tests

open Sys2Proof.Machine

set_option Elab.async false -- one small theorem after another: no thread for each

/-! ## Helpers -/

/-- A launched state with the bytes at the pc, some registers and the flags set (the conventions of 95_test_vectors.md). -/
def machineAt (pc : Word) (bytes : List Byte) (regs : List (Reg × Word)) (flags : Flags := ⟨false, false, false⟩) : State :=
  (regs.foldl (fun s r => s.setReg r.1 r.2) (State.launch Config.default pc (imageOf pc.toNat bytes))).setFlags flags

/-- The same with more bytes stored elsewhere. -/
def withBytes (s : State) (a : Nat) (bs : List Byte) : State := s.setMem (s.mem.writeBytes a bs)

/-- The same with other kinds of trap and another slot. -/
def withTraps (s : State) (kinds : Vector TrapKind 6) (slot : Word) : State :=
  { s with config := ⟨4096, kinds, slot⟩ }

/-- The step answers a next state with the property. -/
def after (s : State) (p : State → Bool) : Bool :=
  match step s with
  | .next t => p t
  | .fault _ => false
  | .refused _ => false

/-- The instruction answers a next state with the property. -/
def runs (i : Instr) (s : State) (p : State → Bool) : Bool :=
  match exec i s with
  | .next t => p t
  | .fault _ => false
  | .refused _ => false

/-- Seven zero bytes, to fill up a word. -/
def zeros7 : List Byte := [0, 0, 0, 0, 0, 0, 0]

/-- All traps unrecognised. -/
def noKinds : Vector TrapKind 6 := Vector.replicate 6 .unrecognised

/-! ## WellFormed refuses, check by check -/

/-- Check I1 (R87): family codes 0xD, 0xE, 0xF. -/
theorem test_wf_family : (⟨0xD, 0, 0xF, 0xF, 0⟩ : Fields).wellFormed = false ∧ (⟨0xF, 0xF, 0xF, 0xF, 0⟩ : Fields).wellFormed = false ∧
    (⟨0xC, 5, 0xF, 0xF, 0⟩ : Fields).wellFormed = true := by decide

/-- Check I2 (R90): one above the maximum of each family, and each maximum. -/
theorem test_wf_subfunction :
    ([(0x0, 1), (0x1, 1), (0x2, 7), (0x3, 1), (0x4, 1), (0x5, 1), (0x6, 4), (0x7, 7), (0x8, 1), (0x9, 1), (0xA, 1), (0xB, 1), (0xC, 6)] :
      List (BitVec 4 × BitVec 4)).all (fun p => !(⟨p.1, p.2, 0, 0, 0⟩ : Fields).subFunctionInRange) = true ∧
    ([(0x0, 0), (0x1, 0), (0x2, 6), (0x3, 0), (0x4, 0), (0x5, 0), (0x6, 3), (0x7, 6), (0x8, 0), (0x9, 0), (0xA, 0), (0xB, 0), (0xC, 5)] :
      List (BitVec 4 × BitVec 4)).all (fun p => (⟨p.1, p.2, 0, 0, 0⟩ : Fields).subFunctionInRange) = true := by decide

/-- Check I3 (R93), families 0x2 and 0x6: a sentinel in either field. -/
theorem test_wf_two_regs : (⟨0x2, 0, 0xF, 0, 0⟩ : Fields).wellFormed = false ∧ (⟨0x2, 0, 0, 0xF, 0⟩ : Fields).wellFormed = false ∧
    (⟨0x6, 0, 0xF, 0, 0⟩ : Fields).wellFormed = false ∧ (⟨0x6, 0, 0, 0xF, 0⟩ : Fields).wellFormed = false := by decide

/-- Check I3 (R93), family 0x3: a register in the first field, a sentinel in the second. -/
theorem test_wf_irmovq : (⟨0x3, 0, 0, 0, 0⟩ : Fields).wellFormed = false ∧ (⟨0x3, 0, 0xF, 0xF, 0⟩ : Fields).wellFormed = false := by
  decide

/-- Check I3 (R93), families 0x4 and 0x5: a sentinel in the first field; an absent base is legal. -/
theorem test_wf_memory : (⟨0x4, 0, 0xF, 0, 0⟩ : Fields).wellFormed = false ∧ (⟨0x5, 0, 0xF, 0, 0⟩ : Fields).wellFormed = false ∧
    (⟨0x4, 0, 0, 0xF, 0⟩ : Fields).wellFormed = true := by decide

/-- Check I3 (R93), families 0xA and 0xB: a sentinel in the first field, a register in the second. -/
theorem test_wf_stack : (⟨0xA, 0, 0xF, 0xF, 0⟩ : Fields).wellFormed = false ∧ (⟨0xA, 0, 0, 0, 0⟩ : Fields).wellFormed = false ∧
    (⟨0xB, 0, 0xF, 0xF, 0⟩ : Fields).wellFormed = false ∧ (⟨0xB, 0, 0, 4, 0⟩ : Fields).wellFormed = false := by decide

/-! ## Decoding: a word of every constructor, written from the format tables (R83) and the opcode map (R95) -/

/-- Family 0x0, 0x1, 0x9, 0xC (V-D1, V-D2, V-D8, V-D8c). -/
theorem test_decode_one_byte : decode [0x00] = .ok .halt ∧ decode [0x10] = .ok .nop ∧ decode [0x90] = .ok .ret ∧
    decode [0xC0] = .ok .iotrap0 ∧ decode [0xC1] = .ok .iotrap1 ∧ decode [0xC2] = .ok .iotrap2 ∧
    decode [0xC3] = .ok .iotrap3 ∧ decode [0xC4] = .ok .iotrap4 ∧ decode [0xC5] = .ok .iotrap5 := by decide

/-- Family 0x2 (V-D3): rcx is the high nibble. -/
theorem test_decode_moves : decode [0x20, 0x13] = .ok (.rrmovq .rcx .rbx) ∧ decode [0x21, 0x13] = .ok (.cmovle .rcx .rbx) ∧
    decode [0x22, 0x13] = .ok (.cmovl .rcx .rbx) ∧ decode [0x23, 0x13] = .ok (.cmove .rcx .rbx) ∧
    decode [0x24, 0x13] = .ok (.cmovne .rcx .rbx) ∧ decode [0x25, 0x13] = .ok (.cmovge .rcx .rbx) ∧
    decode [0x26, 0x13] = .ok (.cmovg .rcx .rbx) := by decide

/-- Families 0x3, 0x4, 0x5 (V-D4, V-D5, V-D6, V-D8f, V-D8g). -/
theorem test_decode_ten_bytes :
    decode [0x30, 0xF8, 0xEF, 0xCD, 0xAB, 0x89, 0x67, 0x45, 0x23, 0x01] = .ok (.irmovq 0x0123456789ABCDEF .r8) ∧
    decode [0x40, 0xE3, 0xF8, 0xFF, 0xFF, 0xFF, 0xFF, 0xFF, 0xFF, 0xFF] = .ok (.rmmovq .r14 (some .rbx) 0xFFFFFFFFFFFFFFF8) ∧
    decode [0x50, 0x14, 0x10, 0, 0, 0, 0, 0, 0, 0] = .ok (.mrmovq .rcx (some .rsp) 0x10) ∧
    decode [0x40, 0x0F, 0x00, 0x02, 0, 0, 0, 0, 0, 0] = .ok (.rmmovq .rax none 0x200) ∧
    decode [0x50, 0x2F, 0x00, 0x02, 0, 0, 0, 0, 0, 0] = .ok (.mrmovq .rdx none 0x200) := by decide

/-- Family 0x6 (V-D8a). -/
theorem test_decode_arith : decode [0x60, 0x10] = .ok (.addq .rcx .rax) ∧ decode [0x61, 0x21] = .ok (.subq .rdx .rcx) ∧
    decode [0x62, 0x9A] = .ok (.andq .r9 .r10) ∧ decode [0x63, 0xEE] = .ok (.xorq .r14 .r14) := by decide

/-- Families 0x7 and 0x8 (V-D7, V-D8b). -/
theorem test_decode_jumps :
    decode ([0x70, 0x16, 0] ++ zeros7) = .ok (.jmp 0x16) ∧ decode ([0x71, 0x40, 0] ++ zeros7) = .ok (.jle 0x40) ∧
    decode ([0x72, 0x40, 1] ++ zeros7) = .ok (.jl 0x140) ∧ decode ([0x73, 0x40, 0] ++ zeros7) = .ok (.je 0x40) ∧
    decode ([0x74, 0x16, 0] ++ zeros7) = .ok (.jne 0x16) ∧ decode ([0x75, 0x40, 0] ++ zeros7) = .ok (.jge 0x40) ∧
    decode [0x76, 0x88, 0x77, 0x66, 0x55, 0x44, 0x33, 0x22, 0x11] = .ok (.jg 0x1122334455667788) ∧
    decode [0x80, 0, 0, 0, 0, 0, 0, 0, 0x80] = .ok (.call 0x8000000000000000) := by decide

/-- Families 0xA and 0xB (V-D8d, V-D8e). -/
theorem test_decode_stack : decode [0xA0, 0xEF] = .ok (.pushq .r14) ∧ decode [0xB0, 0x4F] = .ok (.popq .rsp) := by decide

/-- The encoder gives the spec's bytes (V-M5, V-S3, V-K1, V-M10). -/
theorem test_encode : encode (.rmmovq .r14 (some .rbx) 0xFFFFFFFFFFFFFFF8) = [0x40, 0xE3, 0xF8, 0xFF, 0xFF, 0xFF, 0xFF, 0xFF, 0xFF, 0xFF] ∧
    encode (.call 0x40) = [0x80, 0x40, 0, 0, 0, 0, 0, 0, 0] ∧ encode (.pushq .rsp) = [0xA0, 0x4F] ∧
    encode (.mrmovq .rdx none 0x200) = [0x50, 0x2F, 0x00, 0x02, 0, 0, 0, 0, 0, 0] ∧ encode .iotrap3 = [0xC3] := by decide

/-- V-I1 to V-I10: illegal opcode bytes. -/
theorem test_illegal_opcode_bytes :
    ([0xD0, 0xE0, 0xF0, 0xFF, 0xDC] : List Byte).all (fun b => decode [b] = .error .undefinedFamily) = true ∧
    ([0x01, 0x0F, 0x11, 0x27, 0x2F, 0x64, 0x77, 0x81, 0x91, 0xC6, 0xCF, 0x31, 0x41, 0x51, 0xA1, 0xB1] : List Byte).all
      (fun b => decode [b] = .error .subFunctionOutOfRange) = true := by decide

/-- V-I11 to V-I17: illegal register bytes. -/
theorem test_illegal_register_bytes :
    ([(0x20, 0xF0), (0x20, 0x0F), (0x26, 0xFF), (0xA0, 0xFF), (0xB0, 0xFF), (0xA0, 0x01), (0xB0, 0x00), (0xA0, 0x00), (0x30, 0x00),
      (0x30, 0xE3), (0x30, 0xFF), (0x60, 0xF0), (0x60, 0x0F), (0x63, 0xFF), (0x40, 0xF4), (0x50, 0xF4), (0x40, 0xFF)] :
      List (Byte × Byte)).all (fun p => decode ([p.1, p.2, 0] ++ zeros7) = .error .registerConstraint) = true := by decide

/-- No two rows of the opcode table share a word (R95, R97): the 33 rows' patterns differ where both masks look. -/
theorem test_rows_disjoint : ([.halt, .nop, .rrmovq .rax .rax, .cmovle .rax .rax, .cmovl .rax .rax, .cmove .rax .rax, .cmovne .rax .rax,
      .cmovge .rax .rax, .cmovg .rax .rax, .irmovq 0 .rax, .rmmovq .rax none 0, .mrmovq .rax none 0, .addq .rax .rax,
      .subq .rax .rax, .andq .rax .rax, .xorq .rax .rax, .jmp 0, .jle 0, .jl 0, .je 0, .jne 0, .jge 0, .jg 0, .call 0, .ret,
      .pushq .rax, .popq .rax, .iotrap0, .iotrap1, .iotrap2, .iotrap3, .iotrap4, .iotrap5] : List Instr).Pairwise
      (fun i j => j.row.matchesBytes (encode i) = false ∧ i.row.matchesBytes (encode j) = false) := by decide +kernel

/-- The constraints of a row (R97): a sentinel where the row's list forbids it does not match, and an absent base does. -/
theorem test_row_constraints : (Instr.rrmovq .rax .rax).row.matchesBytes [0x20, 0x13] = true ∧
    (Instr.rrmovq .rax .rax).row.matchesBytes [0x20, 0xFF] = false ∧ (Instr.addq .rax .rax).row.matchesBytes [0x60, 0x0F] = false ∧
    (Instr.irmovq 0 .rax).row.matchesBytes [0x30, 0xFF] = false ∧ (Instr.pushq .rax).row.matchesBytes [0xA0, 0xFF] = false ∧
    (Instr.mrmovq .rax none 0).row.matchesBytes [0x50, 0xF4] = false ∧ (Instr.mrmovq .rax none 0).row.matchesBytes [0x50, 0x2F] = true ∧
    (Instr.rrmovq .rax .rax).row.matchesBytes [0x20] = false := by decide

/-- The host's words: the table's numbers of rows of all four formats (opcode_table.json; R97), decoded and stored for the fetch. -/
theorem test_table_words : decodeTableWord 8 0xC3 = some .iotrap3 ∧ decodeTableWord 16 0x2613 = some (.cmovg .rcx .rbx) ∧
    decodeTableWord 16 0x30F0 = some (.irmovq 0 .rax) ∧ decodeTableWord 8 0x70 = some (.jmp 0) ∧
    decodeTableWord 16 0xA00F = some (.pushq .rax) ∧ decodeTableWord 8 0xD0 = none ∧
    (State.reset.withFetchWord 16 0x30F3).fetch = .ok (.irmovq 0 .rbx) ∧
    (State.reset.withFetchWord 8 0x75).fetch = .ok (.jge 0) := by decide

/-- Assembler form (R104 to R106): `rmmovq %r14, -8(%rbx)` and `iotrap 3`. -/
theorem test_assembly : mnemonic (.rmmovq .r14 (some .rbx) (-8)) = "rmmovq" ∧
    asmOperands (.rmmovq .r14 (some .rbx) (-8)) = [.reg .r14, .mem (-8) (some .rbx)] ∧
    mnemonic .iotrap3 = "iotrap" ∧ asmOperands .iotrap3 = [.trap 3] ∧ regToken .r14 = "%r14" := by decide

/-! ## The end of memory -/

/-- V-D9 to V-D14: the span leaves memory; ADDRESS_FAULT and the pc 10 further. -/
theorem test_span_overrun : after (machineAt 0xFFF [0x20] []) (fun t => t.stat == .addressFault && t.pc == 0x1009) ∧
    after (machineAt 0xFF7 [0x30, 0xF0, 5] []) (fun t => t.stat == .addressFault && t.pc == 0x1001) ∧
    after (machineAt 0xFF8 [0x70] []) (fun t => t.stat == .addressFault) := by decide +kernel

/-- V-D15, V-D15a: the start is out of bounds; the second pc wraps. -/
theorem test_start_out_of_bounds : after (machineAt 0x1000 [] []) (fun t => t.stat == .addressFault && t.pc == 0x100A) ∧
    after (machineAt 0xFFFFFFFFFFFFFFFF [] []) (fun t => t.stat == .addressFault && t.pc == 9) := by decide +kernel

/-- V-D17, V-D18: an illegal opcode byte in the last byte is INSTRUCTION_FAULT, and V-D19: a span overrun comes before the
register byte. -/
theorem test_order_of_checks : after (machineAt 0xFFF [0xF0] []) (fun t => t.stat == .instructionFault && t.pc == 0xFFF) ∧
    after (machineAt 0xFFF [0x27] []) (fun t => t.stat == .instructionFault) ∧
    after (machineAt 0xFF7 [0x30, 0x00, 5] []) (fun t => t.stat == .addressFault) := by decide +kernel

/-- V-D16b, V-D16c: the last legal places of the ten-byte and nine-byte forms. -/
theorem test_last_places : (machineAt 0xFF6 [0x30, 0xF0, 5] []).fetch = .ok (.irmovq 5 .rax) ∧
    (machineAt 0xFF7 [0x70] []).fetch = .ok (.jmp 0) := by decide +kernel

/-- V-S4 (the source's scenario D). -/
theorem test_scenario_d : after (machineAt 0x100 [0xFF] []) (fun t => t.stat == .instructionFault && t.pc == 0x100) := by decide +kernel

/-- V-H6: a terminal state has no step. -/
theorem test_no_step : step ((machineAt 0 [0x10] []).setStat .halted) = .fault .noStepHalted ∧
    step ((machineAt 0 [0x10] []).setStat .addressFault) = .fault .noStepAddressFault ∧
    step ((machineAt 0 [0x10] []).setStat .instructionFault) = .fault .noStepInstructionFault := ⟨rfl, rfl, rfl⟩

/-- From reset with nothing placed, the first step runs the byte 0x00 at address 0: a halt (assumption log 23). -/
theorem test_reset_step : after State.reset (fun t => t.stat == .halted && t.pc == 1) := by decide +kernel

/-! ## HALT and NOP -/

/-- V-H1. -/
theorem test_halt : after (machineAt 0x00A [0x00] [] ⟨true, false, true⟩)
    (fun t => t.stat == .halted && t.flags == ⟨false, false, false⟩ && t.pc == 0x00B) := by decide +kernel

/-- V-H2: a halt in the last byte stays HALTED. -/
theorem test_halt_last_byte : after (machineAt 0xFFF [0x00] []) (fun t => t.stat == .halted && t.pc == 0x1000) := by decide +kernel

/-- V-H3. -/
theorem test_nop : after (machineAt 0x01E [0x10] []) (fun t => t.stat == .aok && t.pc == 0x01F) := by decide +kernel

/-- V-H4: a nop in the last byte runs out of memory. -/
theorem test_nop_last_byte : after (machineAt 0xFFF [0x10] []) (fun t => t.stat == .addressFault && t.pc == 0x1000) := by decide +kernel

/-! ## Moves -/

/-- V-M1. -/
theorem test_rrmovq : after (machineAt 0x20 [0x20, 0x13] [(.rcx, 0x1234)])
    (fun t => t.reg .rbx == 0x1234 && t.reg .rcx == 0x1234 && t.pc == 0x22) := by decide +kernel

/-- V-C3, V-C4. -/
theorem test_cmovle : after (machineAt 0x20 [0x21, 0x13] [(.rcx, 0x1234)] ⟨false, true, false⟩) (fun t => t.reg .rbx == 0x1234 && t.pc == 0x22) ∧
    after (machineAt 0x20 [0x21, 0x13] [(.rcx, 0x1234)] ⟨false, true, true⟩) (fun t => t.reg .rbx == 0 && t.pc == 0x22) := by decide +kernel

/-- V-C6, V-C7. -/
theorem test_cmovl : after (machineAt 0x20 [0x22, 0x13] [(.rcx, 0x1234)] ⟨false, false, true⟩) (fun t => t.reg .rbx == 0x1234 && t.pc == 0x22) ∧
    after (machineAt 0x20 [0x22, 0x13] [(.rcx, 0x1234)] ⟨true, false, false⟩) (fun t => t.reg .rbx == 0 && t.pc == 0x22) := by decide +kernel

/-- V-C8, V-C9. -/
theorem test_cmove : after (machineAt 0x20 [0x23, 0x13] [(.rcx, 0x1234)] ⟨true, false, false⟩) (fun t => t.reg .rbx == 0x1234 && t.pc == 0x22) ∧
    after (machineAt 0x20 [0x23, 0x13] [(.rcx, 0x1234)] ⟨false, false, false⟩) (fun t => t.reg .rbx == 0 && t.pc == 0x22) := by decide +kernel

/-- V-C10, V-C11. -/
theorem test_cmovne : after (machineAt 0x20 [0x24, 0x13] [(.rcx, 0x1234)] ⟨false, true, false⟩) (fun t => t.reg .rbx == 0x1234 && t.pc == 0x22) ∧
    after (machineAt 0x20 [0x24, 0x13] [(.rcx, 0x1234)] ⟨true, false, false⟩) (fun t => t.reg .rbx == 0 && t.pc == 0x22) := by decide +kernel

/-- V-C12, V-C13. -/
theorem test_cmovge : after (machineAt 0x20 [0x25, 0x13] [(.rcx, 0x1234)] ⟨false, true, true⟩) (fun t => t.reg .rbx == 0x1234 && t.pc == 0x22) ∧
    after (machineAt 0x20 [0x25, 0x13] [(.rcx, 0x1234)] ⟨false, false, true⟩) (fun t => t.reg .rbx == 0 && t.pc == 0x22) := by decide +kernel

/-- V-C15, V-C17. -/
theorem test_cmovg : after (machineAt 0x20 [0x26, 0x13] [(.rcx, 0x1234)] ⟨false, false, false⟩) (fun t => t.reg .rbx == 0x1234 && t.pc == 0x22) ∧
    after (machineAt 0x20 [0x26, 0x13] [(.rcx, 0x1234)] ⟨false, true, false⟩) (fun t => t.reg .rbx == 0 && t.pc == 0x22) := by decide +kernel

/-- V-M3, V-M4. -/
theorem test_irmovq : after (machineAt 0x20 [0x30, 0xF8, 0xEF, 0xCD, 0xAB, 0x89, 0x67, 0x45, 0x23, 0x01] [])
      (fun t => t.reg .r8 == 0x0123456789ABCDEF && t.pc == 0x2A) ∧
    after (machineAt 0x20 [0x30, 0xFE, 0xFF, 0xFF, 0xFF, 0xFF, 0xFF, 0xFF, 0xFF, 0xFF] [])
      (fun t => t.reg .r14 == 0xFFFFFFFFFFFFFFFF) := by decide +kernel

/-- V-M5, V-M6. -/
theorem test_rmmovq : after (machineAt 0x20 [0x40, 0xE3, 0xF8, 0xFF, 0xFF, 0xFF, 0xFF, 0xFF, 0xFF, 0xFF] [(.r14, 0x1122334455667788), (.rbx, 0x108)])
      (fun t => t.mem.readBytes 0x100 8 == [0x88, 0x77, 0x66, 0x55, 0x44, 0x33, 0x22, 0x11] && t.pc == 0x2A) ∧
    after (machineAt 0x20 [0x40, 0x03] [(.rax, 0xAA), (.rbx, 0xFF8)])
      (fun t => t.stat == .aok && t.byteAt 0xFF8 == 0xAA && t.byteAt 0xFFF == 0) := by decide +kernel

/-- V-M7, V-M8: nothing is stored. -/
theorem test_rmmovq_out_of_bounds : after (machineAt 0x20 [0x40, 0x03] [(.rax, 0xAA), (.rbx, 0xFF9)])
      (fun t => t.stat == .addressFault && t.byteAt 0xFF9 == 0 && t.pc == 0x20) ∧
    after (machineAt 0x20 [0x40, 0x03] [(.rax, 0xAA), (.rbx, 0x1000)]) (fun t => t.stat == .addressFault) := by decide +kernel

/-- V-M9, V-M11: the base is read before the destination is written; the address wraps. -/
theorem test_mrmovq : after (withBytes (machineAt 0x20 [0x50, 0x00] [(.rax, 0x200)]) 0x200 [0xEF, 0xBE, 0xAD, 0xDE])
      (fun t => t.reg .rax == 0xDEADBEEF && t.pc == 0x2A) ∧
    after (withBytes (machineAt 0x20 [0x50, 0x03, 0x01] [(.rbx, 0xFFFFFFFFFFFFFFFF)]) 0 [1, 2, 3, 4, 5, 6, 7, 8])
      (fun t => t.reg .rax == 0x0807060504030201) := by decide +kernel

/-- V-M12; V-M10: no base. -/
theorem test_mrmovq_edges : after (machineAt 0x20 [0x50, 0x03] [(.rbx, 0x1000), (.rax, 7)])
      (fun t => t.stat == .addressFault && t.reg .rax == 7 && t.pc == 0x20) ∧
    after (withBytes (machineAt 0x20 [0x50, 0x2F, 0x00, 0x02] []) 0x200 [0xEF, 0xBE, 0xAD, 0xDE])
      (fun t => t.reg .rdx == 0xDEADBEEF) := by decide +kernel

/-! ## Arithmetic: `OPq %rcx, %rax` with OF set before -/

/-- V-A2, V-A3. -/
theorem test_addq : after (machineAt 0x20 [0x60, 0x10] [(.rcx, 0x1), (.rax, 0x7FFFFFFFFFFFFFFF)] ⟨false, false, true⟩)
      (fun t => t.reg .rax == 0x8000000000000000 && t.flags == ⟨false, true, true⟩ && t.pc == 0x22) ∧
    after (machineAt 0x20 [0x60, 0x10] [(.rcx, 0x8000000000000000), (.rax, 0x8000000000000000)] ⟨false, false, true⟩)
      (fun t => t.reg .rax == 0x0 && t.flags == ⟨true, false, true⟩ && t.pc == 0x22) := by decide +kernel

/-- V-A4, V-A5. -/
theorem test_addq_wraps : after (machineAt 0x20 [0x60, 0x10] [(.rcx, 0xFFFFFFFFFFFFFFFF), (.rax, 0x1)] ⟨false, false, true⟩)
      (fun t => t.reg .rax == 0x0 && t.flags == ⟨true, false, false⟩ && t.pc == 0x22) ∧
    after (machineAt 0x20 [0x60, 0x10] [(.rcx, 0xFFFFFFFFFFFFFFFF), (.rax, 0x8000000000000000)] ⟨false, false, true⟩)
      (fun t => t.reg .rax == 0x7FFFFFFFFFFFFFFF && t.flags == ⟨false, false, true⟩ && t.pc == 0x22) := by decide +kernel

/-- V-A7, V-A10: second minus first. -/
theorem test_subq : after (machineAt 0x20 [0x61, 0x10] [(.rcx, 0x5), (.rax, 0x3)] ⟨false, false, true⟩)
      (fun t => t.reg .rax == 0xFFFFFFFFFFFFFFFE && t.flags == ⟨false, true, false⟩ && t.pc == 0x22) ∧
    after (machineAt 0x20 [0x61, 0x10] [(.rcx, 0x1), (.rax, 0x8000000000000000)] ⟨false, false, true⟩)
      (fun t => t.reg .rax == 0x7FFFFFFFFFFFFFFF && t.flags == ⟨false, false, true⟩ && t.pc == 0x22) := by decide +kernel

/-- V-A12, V-A13. -/
theorem test_subq_min : after (machineAt 0x20 [0x61, 0x10] [(.rcx, 0x8000000000000000), (.rax, 0x0)] ⟨false, false, true⟩)
      (fun t => t.reg .rax == 0x8000000000000000 && t.flags == ⟨false, true, true⟩ && t.pc == 0x22) ∧
    after (machineAt 0x20 [0x61, 0x10] [(.rcx, 0x8000000000000000), (.rax, 0xFFFFFFFFFFFFFFFF)] ⟨false, false, true⟩)
      (fun t => t.reg .rax == 0x7FFFFFFFFFFFFFFF && t.flags == ⟨false, false, false⟩ && t.pc == 0x22) := by decide +kernel

/-- V-A15, V-A16. -/
theorem test_andq : after (machineAt 0x20 [0x62, 0x10] [(.rcx, 0xF0F0), (.rax, 0xFF00)] ⟨false, false, true⟩)
      (fun t => t.reg .rax == 0xF000 && t.flags == ⟨false, false, false⟩ && t.pc == 0x22) ∧
    after (machineAt 0x20 [0x62, 0x10] [(.rcx, 0x8000000000000000), (.rax, 0xFFFFFFFFFFFFFFFF)] ⟨false, false, true⟩)
      (fun t => t.reg .rax == 0x8000000000000000 && t.flags == ⟨false, true, false⟩ && t.pc == 0x22) := by decide +kernel

/-- V-A18, V-A19. -/
theorem test_xorq : after (machineAt 0x20 [0x63, 0x10] [(.rcx, 0xFF), (.rax, 0x8000000000000000)] ⟨false, false, true⟩)
      (fun t => t.reg .rax == 0x80000000000000FF && t.flags == ⟨false, true, false⟩ && t.pc == 0x22) ∧
    after (machineAt 0x20 [0x63, 0x10] [(.rcx, 0x1234), (.rax, 0x1234)] ⟨false, false, true⟩)
      (fun t => t.reg .rax == 0x0 && t.flags == ⟨true, false, false⟩ && t.pc == 0x22) := by decide +kernel

/-- Section 2.5: the same register twice, `addq %rax, %rax` and `subq %rax, %rax`. -/
theorem test_same_register : after (machineAt 0x20 [0x60, 0x00] [(.rax, 0x4000000000000000)])
      (fun t => t.reg .rax == 0x8000000000000000 && t.flags == ⟨false, true, true⟩) ∧
    after (machineAt 0x20 [0x61, 0x00] [(.rax, 0x1234)]) (fun t => t.reg .rax == 0 && t.flags == ⟨true, false, false⟩) := by decide +kernel

/-! ## Control transfer and the stack -/

/-- V-J1, V-J3: the second destination is out of memory. -/
theorem test_jmp : after (machineAt 0x100 [0x70, 0x16] []) (fun t => t.pc == 0x16 && t.stat == .aok) ∧
    after (machineAt 0 [0x70, 0x00, 0x10] []) (fun t => t.pc == 0x1000 && t.stat == .addressFault) := by decide +kernel

/-- V-C3, V-C4. -/
theorem test_jle : after (machineAt 0x10 [0x71, 0x40] [] ⟨false, true, false⟩) (fun t => t.pc == 0x40) ∧
    after (machineAt 0x10 [0x71, 0x40] [] ⟨false, true, true⟩) (fun t => t.pc == 0x19) := by decide +kernel

/-- V-C6, V-C7. -/
theorem test_jl : after (machineAt 0x10 [0x72, 0x40] [] ⟨false, false, true⟩) (fun t => t.pc == 0x40) ∧
    after (machineAt 0x10 [0x72, 0x40] [] ⟨true, false, false⟩) (fun t => t.pc == 0x19) := by decide +kernel

/-- V-C8, V-C9. -/
theorem test_je : after (machineAt 0x10 [0x73, 0x40] [] ⟨true, false, false⟩) (fun t => t.pc == 0x40) ∧
    after (machineAt 0x10 [0x73, 0x40] [] ⟨false, false, false⟩) (fun t => t.pc == 0x19) := by decide +kernel

/-- V-C10, V-C11. -/
theorem test_jne : after (machineAt 0x10 [0x74, 0x40] [] ⟨false, true, false⟩) (fun t => t.pc == 0x40) ∧
    after (machineAt 0x10 [0x74, 0x40] [] ⟨true, false, false⟩) (fun t => t.pc == 0x19) := by decide +kernel

/-- V-C12, V-C13. -/
theorem test_jge : after (machineAt 0x10 [0x75, 0x40] [] ⟨false, true, true⟩) (fun t => t.pc == 0x40) ∧
    after (machineAt 0x10 [0x75, 0x40] [] ⟨false, false, true⟩) (fun t => t.pc == 0x19) := by decide +kernel

/-- V-C15, V-C17. -/
theorem test_jg : after (machineAt 0x10 [0x76, 0x40] [] ⟨false, false, false⟩) (fun t => t.pc == 0x40) ∧
    after (machineAt 0x10 [0x76, 0x40] [] ⟨false, true, false⟩) (fun t => t.pc == 0x19) := by decide +kernel

/-- V-S3 (scenario C), V-J6: the slot overlaps the call's own bytes. -/
theorem test_call : after (machineAt 0x10 [0x80, 0x40] [(.rsp, 0x1000)])
      (fun t => t.pc == 0x40 && t.reg .rsp == 0xFF8 && t.mem.readBytes 0xFF8 8 == [0x19, 0, 0, 0, 0, 0, 0, 0]) ∧
    after (machineAt 0x10 [0x80, 0x40] [(.rsp, 0x18)])
      (fun t => t.pc == 0x40 && t.reg .rsp == 0x10 && t.mem.readBytes 0x10 8 == [0x19, 0, 0, 0, 0, 0, 0, 0]) := by decide +kernel

/-- V-J7, V-J8: the slot wraps; the destination is out of memory and the write-backs stay. -/
theorem test_call_faults : after (machineAt 0x10 [0x80, 0x40] [])
      (fun t => t.stat == .addressFault && t.reg .rsp == 0 && t.pc == 0x10) ∧
    after (machineAt 0x10 [0x80, 0x00, 0x20] [(.rsp, 0x200)])
      (fun t => t.stat == .addressFault && t.pc == 0x2000 && t.reg .rsp == 0x1F8 && t.byteAt 0x1F8 == 0x19) := by decide +kernel

/-- V-J9, V-J10. -/
theorem test_ret : after (withBytes (machineAt 0x40 [0x90] [(.rsp, 0xFF8)]) 0xFF8 [0x19])
      (fun t => t.pc == 0x19 && t.reg .rsp == 0x1000 && t.stat == .aok) ∧
    after (withBytes (machineAt 0x20 [0x90] [(.rsp, 0x1F8)]) 0x1F8 [0x00, 0x20])
      (fun t => t.pc == 0x2000 && t.reg .rsp == 0x200 && t.stat == .addressFault) := by decide +kernel

/-- V-J11. -/
theorem test_ret_faults : after (machineAt 0x20 [0x90] [(.rsp, 0x1000)])
    (fun t => t.stat == .addressFault && t.reg .rsp == 0x1000 && t.pc == 0x20) := by decide +kernel

/-- V-S2 (scenario B), V-K1: the old stack pointer is pushed. -/
theorem test_pushq : after (machineAt 0x100 [0xA0, 0x0F] [(.rax, 0x2A), (.rsp, 0x1000)])
      (fun t => t.reg .rsp == 0xFF8 && t.byteAt 0xFF8 == 0x2A && t.pc == 0x102) ∧
    after (machineAt 0x20 [0xA0, 0x4F] [(.rsp, 0x200)])
      (fun t => t.reg .rsp == 0x1F8 && t.mem.readBytes 0x1F8 8 == [0, 2, 0, 0, 0, 0, 0, 0]) := by decide +kernel

/-- V-K5, V-K6. -/
theorem test_pushq_faults : after (machineAt 0x20 [0xA0, 0x0F] [(.rax, 7)])
      (fun t => t.stat == .addressFault && t.reg .rsp == 0 && t.pc == 0x20) ∧
    after (machineAt 0x20 [0xA0, 0x0F] [(.rax, 7), (.rsp, 4)])
      (fun t => t.stat == .addressFault && t.reg .rsp == 4) := by decide +kernel

/-- V-K3, V-K2: the value read stays in rsp. -/
theorem test_popq : after (withBytes (machineAt 0x20 [0xB0, 0x3F] [(.rsp, 0xFF8)]) 0xFF8 [0x2A])
      (fun t => t.reg .rbx == 0x2A && t.reg .rsp == 0x1000 && t.pc == 0x22) ∧
    after (withBytes (machineAt 0x20 [0xB0, 0x4F] [(.rsp, 0x1F8)]) 0x1F8 [0x00, 0x03]) (fun t => t.reg .rsp == 0x300) := by decide +kernel

/-- V-K7, V-K8. -/
theorem test_popq_faults : after (machineAt 0x20 [0xB0, 0x0F] [(.rsp, 0x1000)])
      (fun t => t.stat == .addressFault && t.reg .rsp == 0x1000 && t.pc == 0x20) ∧
    after (machineAt 0x20 [0xB0, 0x0F] [(.rsp, 0xFF9)]) (fun t => t.stat == .addressFault) := by decide +kernel

/-! ## IOTRAP -/

/-- V-T1, V-T4, V-T7: what an output trap's step leaves beside the text. -/
theorem test_output_traps : after (machineAt 0x30 [0xC0] []) (fun t => t.pc == 0x31 && t.stat == .aok && t.outputDraws == 1) ∧
    after (machineAt 0x30 [0xC2] []) (fun t => t.pc == 0x31 && t.stat == .aok) ∧
    after (machineAt 0x30 [0xC4] []) (fun t => t.pc == 0x31 && t.stat == .aok) := by decide +kernel

/-- V-T2, V-T5: what an input trap does with each answer of the host; the trap takes its width from its kind. -/
theorem test_input_answered : ((machineAt 0x30 [0xC1] []).inputAnswered 1 (some 0x1141)).mem.readBytes 0x800 2 = [0x41, 0] ∧
    ((machineAt 0x30 [0xC1] []).inputAnswered 1 (some 0x41)).pc = 0x31 ∧
    ((machineAt 0x30 [0xC3] []).inputAnswered 8 (some 0xFFFFFFFFFFFFFFFF)).mem.readBytes 0x7FF 10 =
      [0, 0xFF, 0xFF, 0xFF, 0xFF, 0xFF, 0xFF, 0xFF, 0xFF, 0] := by decide +kernel

/-- V-T3, V-T6: the host fails; the flags are not cleared. -/
theorem test_input_fails : ((machineAt 0x30 [0xC1] [] ⟨true, true, true⟩).inputAnswered 1 none).stat = .halted ∧
    ((machineAt 0x30 [0xC1] [] ⟨true, true, true⟩).inputAnswered 1 none).flags = ⟨true, true, true⟩ ∧
    ((machineAt 0x30 [0xC3] []).inputAnswered 8 none).pc = 0x31 := by decide +kernel

/-- V-T10: the slot leaves memory. -/
theorem test_input_slot_out_of_bounds :
    ((withTraps (machineAt 0x30 [0xC3] []) Config.default.trapKinds 0xFFC).inputAnswered 8 (some 1)).stat = .addressFault ∧
    ((withTraps (machineAt 0x30 [0xC3] []) Config.default.trapKinds 0xFFC).inputAnswered 8 (some 1)).byteAt 0xFFC = 0 := by decide +kernel

/-- V-T8. -/
theorem test_flush : after ((fun s : State => { s with lineBuffer := [0x68, 0x69], stdout := [0x21] }) (machineAt 0x30 [0xC5] []))
    (fun t => t.pc == 0x31 && t.lineBuffer == [] && t.stdout == [0x21, 0x68, 0x69]) := by decide +kernel

/-- V-T11. -/
theorem test_unrecognised : after (withTraps (machineAt 0x30 [0xC1] []) noKinds 0x800) (fun t => t.stat == .halted && t.pc == 0x30) := by
  decide +kernel

/-! ## Witnesses: for each statement of Obligations.lean with hypotheses, values that meet them, one for each clause -/

theorem witness_DecodedBytesAreTheEncoding : decode [0x26, 0x13, 0x00] = .ok (.cmovg .rcx .rbx) := by decide

theorem witness_IllegalOpcodeBytesAreRefused :
    (0xC < (hiNibble 0xD0).toNat) ∧ ((hiNibble 0xC6).toNat ≤ 0xC ∧ maxIfun (hiNibble 0xC6) < (loNibble 0xC6).toNat) ∧
    ((0xC6 : Byte) ∉ legalOpcodeBytes) ∧ ((0xC5 : Byte) ∈ legalOpcodeBytes) := by decide

theorem witness_SpanOverrunIsRefused : (0x20 : Byte) ∈ legalOpcodeBytes ∧
    ([] : List Byte).length + 1 < lengthOfCode (hiNibble 0x20) ∧ ¬ [(0x13 : Byte)].length + 1 < lengthOfCode (hiNibble 0x20) := by decide

theorem witness_RegisterByteIsCheckedByFamily : (0xA0 : Byte) ∈ legalOpcodeBytes ∧
    lengthOfCode (hiNibble 0xA0) ≤ ([] : List Byte).length + 2 ∧
    (⟨hiNibble 0xA0, loNibble 0xA0, hiNibble 0xEE, loNibble 0xEE, 0⟩ : Fields).registersLegal = false ∧
    (⟨hiNibble 0xA0, loNibble 0xA0, hiNibble 0xEF, loNibble 0xEF, 0⟩ : Fields).registersLegal = true := by decide

theorem witness_FetchStartOutOfBoundsIsAddressFault :
    (machineAt 0x1000 [] []).config.memSize ≤ (machineAt 0x1000 [] []).pc.toNat ∧ ¬ (machineAt 0xFFF [] []).config.memSize ≤ (machineAt 0xFFF [] []).pc.toNat := by
  decide +kernel

/-- The span ends at the end of memory. -/
theorem witness_SuccessfulDecodeStaysInMemory : (machineAt 0xFF6 [0x30, 0xF0, 5] []).config.Valid ∧
    (machineAt 0xFF6 [0x30, 0xF0, 5] []).fetch = .ok (.irmovq 5 .rax) := by decide +kernel

/-- A success, a refusal by the opcode byte, by the span and by the register byte, from states whose other bytes and registers
differ. -/
theorem witness_DecodeReadsOnlyItsSpan :
    (machineAt 0x10 [0x20, 0x13] []).fetch = .ok (.rrmovq .rcx .rbx) ∧
    (∀ k, k < (Instr.rrmovq .rcx .rbx).length → (machineAt 0x10 [0x20, 0x13, 0x77] [(.rax, 5)]).byteAt (0x10 + k) = (machineAt 0x10 [0x20, 0x13] []).byteAt (0x10 + k)) ∧
    (machineAt 0x10 [0x27] []).fetch = .error .subFunctionOutOfRange ∧
    (machineAt 0x10 [0x27, 0x77] []).byteAt 0x10 = (machineAt 0x10 [0x27] []).byteAt 0x10 ∧
    (machineAt 0xFFF [0x20] []).fetch = .error .spanOutOfBounds ∧
    (machineAt 0x10 [0x20, 0xF0] []).fetch = .error .registerConstraint ∧
    (machineAt 0x10 [0x20, 0xF0, 0x77] []).byteAt 0x11 = (machineAt 0x10 [0x20, 0xF0] []).byteAt 0x11 := by decide +kernel

theorem witness_StepRunsTheFetchedInstruction : (machineAt 0 [0x10] []).stat = .aok ∧ (machineAt 0 [0x10] []).fetch = .ok .nop := by decide +kernel

theorem witness_StepRunsTheEncodedInstruction : (machineAt 0xFFF [0x10] []).stat = .aok ∧
    (machineAt 0xFFF [0x10] []).inBounds (machineAt 0xFFF [0x10] []).pc (Instr.nop).length ∧
    ∀ k, k < (Instr.nop).length → (machineAt 0xFFF [0x10] []).byteAt ((machineAt 0xFFF [0x10] []).pc.toNat + k) = (encode .nop).getD k 0 := by
  decide +kernel

/-- One state for each of the five refusals. -/
theorem witness_DecodeFaultEndsTheRun : (machineAt 0x1000 [] []).stat = .aok ∧ (machineAt 0x1000 [] []).fetch = .error .startOutOfBounds ∧
    (machineAt 0xFFF [0xB0] []).fetch = .error .spanOutOfBounds ∧ (machineAt 0 [0xD0] []).fetch = .error .undefinedFamily ∧
    (machineAt 0 [0x64] []).fetch = .error .subFunctionOutOfRange ∧ (machineAt 0 [0xB0, 0x00] []).fetch = .error .registerConstraint := by
  decide +kernel

theorem witness_LastByteOfMemory : (machineAt 0xFFF [0x27] []).stat = .aok ∧ (machineAt 0xFFF [] []).pc.toNat + 1 = (machineAt 0xFFF [] []).config.memSize ∧
    (machineAt 0xFFF [0x27] []).byteAt 0xFFF ∉ legalOpcodeBytes ∧
    (machineAt 0xFFF [0x26] []).byteAt 0xFFF ∈ legalOpcodeBytes ∧ lengthOfCode (hiNibble ((machineAt 0xFFF [0x26] []).byteAt 0xFFF)) ≠ 1 ∧
    (machineAt 0xFFF [0x90] []).byteAt 0xFFF ∈ legalOpcodeBytes ∧ lengthOfCode (hiNibble ((machineAt 0xFFF [0x90] []).byteAt 0xFFF)) = 1 := by
  decide +kernel

/-- I1, I2, I3 and none. -/
theorem witness_InstructionFaultCauses : after (machineAt 0xFFF [0xD0] []) (fun t => t.stat == .instructionFault) ∧
    after (machineAt 0xFFF [0x64] []) (fun t => t.stat == .instructionFault) ∧
    after (machineAt 0xFFE [0x60, 0xF0] []) (fun t => t.stat == .instructionFault) ∧
    after (machineAt 0xFFF [0x60] []) (fun t => t.stat != .instructionFault) := by decide +kernel

/-- H1 and H3 by a step, with the flags of each; H2 by the answered trap (`test_input_fails`). -/
theorem witness_HaltedHasThreeCauses :
    after (machineAt 0 [0x00] [] ⟨true, true, true⟩) (fun t => t.stat == .halted && t.flags == ⟨false, false, false⟩) ∧
    after (withTraps (machineAt 0 [0xC1] [] ⟨true, true, true⟩) noKinds 0) (fun t => t.stat == .halted && t.flags == ⟨true, true, true⟩) ∧
    after (machineAt 0 [0x10] []) (fun t => t.stat != .halted) := by decide +kernel

/-- A1, A2, A3, A4, A5, A6, A7 by a step and none; A8 by the answered trap (`test_input_slot_out_of_bounds`). -/
theorem witness_AddressFaultCauses : after (machineAt 0x1000 [] []) (fun t => t.stat == .addressFault) ∧
    after (machineAt 0xFFF [0x80] []) (fun t => t.stat == .addressFault) ∧
    after (machineAt 0 [0x40, 0x03] [(.rbx, 0xFF9)]) (fun t => t.stat == .addressFault) ∧
    after (machineAt 0 [0x50, 0x03] [(.rbx, 0xFF9)]) (fun t => t.stat == .addressFault) ∧
    after (machineAt 0 [0xA0, 0x0F] [(.rsp, 7)]) (fun t => t.stat == .addressFault) ∧
    after (machineAt 0 [0xB0, 0x0F] [(.rsp, 0xFF9)]) (fun t => t.stat == .addressFault) ∧
    after (machineAt 0 [0x70, 0x00, 0x10] []) (fun t => t.stat == .addressFault) ∧
    after (machineAt 0 [0x70, 0xFF, 0x0F] []) (fun t => t.stat == .aok) := by decide +kernel

/-- The invariant before a store, and the step's next state. -/
theorem witness_EveryStepKeepsTheInvariant : ((machineAt 0 [0xA0, 0x0F] [(.rax, 7), (.rsp, 0x1000)]).config.Valid ∧
      (machineAt 0 [0xA0, 0x0F] [(.rax, 7), (.rsp, 0x1000)]).mem.wf ∧
      (∀ c ∈ (machineAt 0 [0xA0, 0x0F] [(.rax, 7), (.rsp, 0x1000)]).mem, c.1 < (machineAt 0 [0xA0, 0x0F] [(.rax, 7), (.rsp, 0x1000)]).config.memSize) ∧
      ((machineAt 0 [0xA0, 0x0F] [(.rax, 7), (.rsp, 0x1000)]).stat = .aok →
        (machineAt 0 [0xA0, 0x0F] [(.rax, 7), (.rsp, 0x1000)]).pc.toNat < (machineAt 0 [0xA0, 0x0F] [(.rax, 7), (.rsp, 0x1000)]).config.memSize)) ∧
    after (machineAt 0 [0xA0, 0x0F] [(.rax, 7), (.rsp, 0x1000)]) (fun t => t.stat == .aok) := by decide +kernel

/-- The image fills memory up to its end, and the entry point is the last byte. -/
theorem witness_LaunchMeetsTheInvariant : Config.default.Valid ∧ (0xFFF : Word).toNat < Config.default.memSize ∧
    0xFFE + [(0x10 : Byte), 0x00].length ≤ Config.default.memSize := by decide +kernel

theorem witness_AokStepLeavesPcInMemory : after (machineAt 0xFFE [0x10] []) (fun t => t.stat == .aok && t.pc == 0xFFF) := by decide +kernel

theorem witness_FlagWritersAndReaders : writesFlags (.popq .rsp) = false ∧ readsFlags (.popq .rsp) = false ∧
    (machineAt 0 [0xD0] []).stat = .aok ∧ (machineAt 0 [0xD0] []).fetch = .error .undefinedFamily ∧
    condHolds ⟨false, true, true⟩ .ge = condHolds (machineAt 0 [] [] ⟨true, false, false⟩).flags .ge ∧
    Cond.le ≠ .always ∧ (0x40 : Word) ≠ (machineAt 0 [] []).pc + 9 ∧
    (machineAt 0 [] [(.rax, 5)]).reg .rax ≠ (machineAt 0 [] [(.rax, 5)]).reg .rbx := by decide +kernel

/-- A fall-through, a taken jump, a ret and a trap of a recognised kind. -/
theorem witness_PcAfterEachInstruction : (machineAt 0 [] []).stat = .aok ∧ (machineAt 0 [] []).trapKind 5 ≠ .unrecognised ∧
    runs .nop (machineAt 0 [] []) (fun t => t.stat != .addressFault) ∧
    runs (.jmp 0x1000) (machineAt 0 [] []) (fun t => t.stat != .addressFault && t.pc == 0x1000) ∧
    runs .ret (machineAt 0 [0x34, 0x12] []) (fun t => t.stat != .addressFault && t.pc == 0x1234) ∧
    runs .iotrap5 (machineAt 0 [] []) (fun t => t.stat != .addressFault && t.pc == 1) := by decide +kernel

theorem witness_OnlyListedRegistersAreWritten : runs (.popq .rsp) (machineAt 0 [5] []) (fun t => t.reg .rsp == 5 && t.reg .rax == 0) := by
  decide +kernel

theorem witness_OnlyStoredBytesChange : (machineAt 0 [5] [(.rsp, 0x100), (.rax, 7)]).mem.wf ∧
    runs (.pushq .rax) (machineAt 0 [5] [(.rsp, 0x100), (.rax, 7)]) (fun t => t.byteAt 0xF8 == 7 && t.byteAt 0 == 5) ∧
    storeSpan (.pushq .rax) (machineAt 0 [5] [(.rsp, 0x100), (.rax, 7)]) = some (0xF8, 8) ∧
    storeSpan .iotrap1 (machineAt 0 [] []) = some (0x800, 1) ∧ storeSpan .iotrap3 (machineAt 0 [] []) = some (0x800, 8) ∧
    storeSpan .iotrap5 (machineAt 0 [] []) = none ∧ storeSpan .nop (machineAt 0 [] []) = none := by decide +kernel

theorem witness_OnlyIotrapReachesTheHost : trapNumber (.pushq .rax) = none ∧ runs (.pushq .rax) (machineAt 0 [] []) (fun _ => true) := by
  decide +kernel

/-- A pair of each of the lists that `ConditionalMoves`, `ArithmeticResults` and `Jumps` range over. -/
theorem witness_ConditionalMoves (l : List ((Reg → Reg → Instr) × (Flags → Bool))) :
    (Instr.rrmovq, fun _ => true) ∈ (Instr.rrmovq, fun _ => true) :: l := List.mem_cons_self

theorem witness_ArithmeticResults (l : List ((Reg → Reg → Instr) × (Word → Word → Word))) :
    (Instr.addq, fun a b => b + a) ∈ (Instr.addq, fun a b => b + a) :: l := List.mem_cons_self

theorem witness_Jumps (l : List ((Word → Instr) × (Flags → Bool))) :
    (Instr.jmp, fun _ => true) ∈ (Instr.jmp, fun _ => true) :: l := List.mem_cons_self

/-- The lowest and the highest slot, with a base, without one, and with an address that wraps. -/
theorem witness_StoreInBounds : (machineAt 0 [] [(.rbx, 8)]).mem.wf ∧
    (machineAt 0 [] [(.rbx, 8)]).inBounds ((machineAt 0 [] [(.rbx, 8)]).effectiveAddress (some .rbx) 0xFFFFFFFFFFFFFFF8) 8 ∧
    (machineAt 0 [] []).inBounds ((machineAt 0 [] []).effectiveAddress none 0xFF8) 8 := by decide +kernel

theorem witness_LoadInBounds : (machineAt 0 [] [(.rbx, 1)]).inBounds ((machineAt 0 [] [(.rbx, 1)]).effectiveAddress (some .rbx) 0xFF7) 8 ∧
    (machineAt 0 [] []).inBounds ((machineAt 0 [] []).effectiveAddress none 0) 8 := by decide +kernel

theorem witness_CallInBounds : (machineAt 0 [] [(.rsp, 8)]).mem.wf ∧ (machineAt 0 [] [(.rsp, 8)]).inBounds ((machineAt 0 [] [(.rsp, 8)]).reg .rsp - 8) 8 ∧
    (machineAt 0 [] [(.rsp, 0x1000)]).inBounds ((machineAt 0 [] [(.rsp, 0x1000)]).reg .rsp - 8) 8 := by decide +kernel

theorem witness_ReturnInBounds : (machineAt 0 [] []).inBounds ((machineAt 0 [] []).reg .rsp) 8 ∧
    (machineAt 0 [] [(.rsp, 0xFF8)]).inBounds ((machineAt 0 [] [(.rsp, 0xFF8)]).reg .rsp) 8 := by decide +kernel

theorem witness_PushInBounds : (machineAt 0 [] [(.rsp, 8)]).mem.wf ∧ (machineAt 0 [] [(.rsp, 8)]).inBounds ((machineAt 0 [] [(.rsp, 8)]).reg .rsp - 8) 8 ∧
    (machineAt 0 [] [(.rsp, 0x1000)]).inBounds ((machineAt 0 [] [(.rsp, 0x1000)]).reg .rsp - 8) 8 := by decide +kernel

theorem witness_PopInBounds : (machineAt 0 [] []).inBounds ((machineAt 0 [] []).reg .rsp) 8 ∧ Reg.rax ≠ .rsp ∧
    (machineAt 0 [] [(.rsp, 0xFF8)]).inBounds ((machineAt 0 [] [(.rsp, 0xFF8)]).reg .rsp) 8 := by decide +kernel

/-- One byte past the last legal slot in each clause, and below zero for the push. -/
theorem witness_DataAccessOutOfBoundsFaults :
    ¬ (machineAt 0 [] []).inBounds ((machineAt 0 [] []).effectiveAddress none 0xFF9) 8 ∧
    ¬ (machineAt 0 [] [(.rsp, 0x1001)]).inBounds ((machineAt 0 [] [(.rsp, 0x1001)]).reg .rsp - 8) 8 ∧
    ¬ (machineAt 0 [] [(.rsp, 7)]).inBounds ((machineAt 0 [] [(.rsp, 7)]).reg .rsp - 8) 8 ∧
    ¬ (machineAt 0 [] [(.rsp, 0xFF9)]).inBounds ((machineAt 0 [] [(.rsp, 0xFF9)]).reg .rsp) 8 := by decide +kernel

theorem witness_PushThenPopMovesTheValue : (machineAt 0 [] [(.rsp, 0x1000)]).mem.wf ∧
    (machineAt 0 [] [(.rsp, 0x1000)]).inBounds ((machineAt 0 [] [(.rsp, 0x1000)]).reg .rsp - 8) 8 := by decide +kernel

theorem witness_CallThenReturnComesBack : (machineAt 0 [] [(.rsp, 8)]).mem.wf ∧
    (machineAt 0 [] [(.rsp, 8)]).inBounds ((machineAt 0 [] [(.rsp, 8)]).reg .rsp - 8) 8 := by decide +kernel

theorem witness_OutputTraps : (machineAt 0 [] []).trapKind 0 = .charOut ∧ (machineAt 0 [] []).trapKind 2 = .decOut ∧
    (machineAt 0 [] []).trapKind 4 = .strOut := by decide +kernel

theorem witness_FlushTraps : (machineAt 0 [] []).trapKind 5 = .flush := by decide +kernel

/-- Both widths, with the slot at the end of memory and just past it. -/
theorem witness_InputTraps : (machineAt 0 [] []).mem.wf ∧ (machineAt 0 [] []).trapKind 1 = .charIn ∧ (machineAt 0 [] []).trapKind 3 = .decIn ∧
    (machineAt 0 [] []).inBounds 0xFFF 1 ∧ ¬ (machineAt 0 [] []).inBounds 0x1000 1 ∧ (machineAt 0 [] []).inBounds 0xFF8 8 ∧
    ¬ (machineAt 0 [] []).inBounds 0xFF9 8 := by decide +kernel

theorem witness_UnrecognisedTraps : (withTraps (machineAt 0 [] []) noKinds 0).trapKind 4 = .unrecognised := by decide +kernel

theorem witness_IotrapEnvelope : (machineAt 0 [] []).mem.wf ∧ (machineAt 0 [] []).stat = .aok := by decide +kernel

/-- Both widths, with the values of V-M11's memory. -/
theorem witness_ReadIsTheLittleEndianSum : ((1 : Nat) = 1 ∨ (1 : Nat) = 8) ∧ ((8 : Nat) = 1 ∨ (8 : Nat) = 8) ∧
    natLE (Memory.readBytes [(0, 1), (1, 2)] 0 1) = 1 ∧ natLE (Memory.readBytes [(0, 1), (1, 2)] 0 8) = 0x0201 := by decide

theorem witness_WriteStoresLittleEndianBytes : Memory.wf [(3, 0x11)] ∧
    ((Memory.writeLE [(3, 0x11)] 4 8 0x0102).readBytes 3 9 = [0x11, 0x02, 0x01, 0, 0, 0, 0, 0, 0]) := by decide +kernel

/-- In bounds up to the last byte, out of bounds past it and with bit 63 set. -/
theorem witness_BoundsTestIsTheSignedTest : (machineAt 0 [] []).config.Valid ∧ (machineAt 0 [] []).inBounds 0xFFF 1 ∧
    ¬ (machineAt 0 [] []).inBounds 0xFFF 2 ∧ ¬ (machineAt 0 [] []).inBounds 0x8000000000000000 1 := by decide +kernel

/-- The store of program P6: `rmmovq %rax, 0x14` at 0x00A. -/
theorem witness_StoreIsSeenByTheNextFetch :
    let s := machineAt 0x00A [0x40, 0x0F, 0x14] [(.rax, 0x10)]
    s.config.Valid ∧ s.mem.wf ∧ s.stat = .aok ∧ s.fetch = .ok (.rmmovq .rax none 0x14) ∧
      s.effectiveAddress none 0x14 = s.pc + 10 ∧ s.inBounds (s.pc + 10) 8 := by decide +kernel

/-- Each direction, for an 8-bit and a 16-bit row. -/
theorem witness_TableRowsSayWhatDecodes :
    ((Instr.jmp 0).row.matchesBytes ([0x70, 0x16, 0] ++ zeros7) = true ∧ (Instr.jmp 0).row.length ≤ ([0x70, 0x16, 0] ++ zeros7).length) ∧
    (decode [0xA0, 0xEF] = .ok (.pushq .r14) ∧ (Instr.pushq .r14).row = (Instr.pushq .rax).row) := by decide

end Sys2Proof.Tests
end

/-! The family `00_scope.md`: which states have a step. -/

namespace Sys2Proof.Machine

/-- No status-AOK state is stuck: a failed decode is taken as a state change, and no instruction faults or is refused
(40_execution_model.md R130). -/
theorem step_answers_next_of_aok {s : State} (h : s.stat = .aok) : ∃ t, step s = .next t := by
  cases hf : s.fetch with
  | error f => exact ⟨_, step_of_decode_fault h hf⟩
  | ok i =>
    obtain ⟨u, hu⟩ := exec_answers_next i s
    exact ⟨_, step_of_fetch h hf hu⟩

/-- Settles O12: a next state comes from an AOK state only, and every AOK state has one. -/
theorem exactlyAokHasAStep : Obligations.ExactlyAokHasAStep := by
  intro s
  constructor
  · rintro ⟨t, ht⟩
    exact (step_cases ht).1
  · exact step_answers_next_of_aok

end Sys2Proof.Machine

/-! The family `10_state.md`: who writes and who reads the condition flags (R29). -/

namespace Sys2Proof.Machine

/-! ## The families with members, by their common rule -/

@[simp] theorem exec_opqInstr (op : AluOp) (rA rB : Reg) (s : State) :
    exec (opqInstr op rA rB) s = .next (s.arith op rA rB) := by
  cases op <;> rfl

@[simp] theorem exec_cmovInstr (c : Cond) (rA rB : Reg) (s : State) :
    exec (cmovInstr c rA rB) s = .next (s.condMove c rA rB) := by
  cases c <;> rfl

@[simp] theorem exec_jumpInstr (c : Cond) (dest : Word) (s : State) :
    exec (jumpInstr c dest) s = .next (s.jump c dest) := by
  cases c <;> rfl

/-! ## Who writes the flags -/

@[simp] theorem State.arith_flags (s : State) (op : AluOp) (rA rB : Reg) :
    (s.arith op rA rB).flags = aluFlags op (s.reg rA) (s.reg rB) := rfl

/-- Only the arithmetic instructions and HALT write the flags, and no fault does. -/
theorem exec_flags_of_not_writesFlags {i : Instr} {s t : State} (hw : writesFlags i = false) (h : exec i s = .next t) :
    t.flags = s.flags := by
  cases hn : trapNumber i with
  | some n =>
    obtain ⟨-, -, hf, -⟩ := exec_of_trap h hn
    exact hf
  | none =>
    cases hd : dataAddress i s with
    | none =>
      obtain ⟨-, -, -, -, -, -, -, hf, -, -⟩ := exec_of_no_access h hd hn
      exact hf hw
    | some a =>
      rcases exec_of_access h hd with ⟨-, rfl⟩ | ⟨-, -, -, -, -, -, -, hf, -⟩
      · rfl
      · exact hf

@[simp] theorem State.takeDecodeFault_flags (s : State) (f : DecodeFault) : (s.takeDecodeFault f).flags = s.flags := rfl

/-! ## The shared operations from other flags

Each lemma runs an operation from `s.setFlags g` and from `s`, and compares what it leaves with the flags masked. -/

/-- A data store lets the flags out only through what follows it. -/
theorem State.storeThen_setFlags {k : State → State} {g f : Flags}
    (hk : ∀ t : State, (k (t.setFlags g)).setFlags f = (k t).setFlags f) (s : State) (a v : Word) :
    ((s.setFlags g).storeThen a v k).setFlags f = (s.storeThen a v k).setFlags f := by
  by_cases hb : s.inBounds a 8
  · rw [State.storeThen_inBounds hb, State.storeThen_inBounds (s := s.setFlags g) hb]
    exact hk (s.setMem (s.mem.writeLE a.toNat 8 v))
  · rw [State.storeThen_outOfBounds hb, State.storeThen_outOfBounds (s := s.setFlags g) hb]
    rfl

/-- A data load lets the flags out only through what follows it. -/
theorem State.loadThen_setFlags {k : Word → State → State} {g f : Flags}
    (hk : ∀ (v : Word) (t : State), (k v (t.setFlags g)).setFlags f = (k v t).setFlags f) (s : State) (a : Word) :
    ((s.setFlags g).loadThen a k).setFlags f = (s.loadThen a k).setFlags f := by
  by_cases hb : s.inBounds a 8
  · rw [State.loadThen_inBounds hb, State.loadThen_inBounds (s := s.setFlags g) hb]
    exact hk (s.mem.readWord a.toNat) s
  · rw [State.loadThen_outOfBounds hb, State.loadThen_outOfBounds (s := s.setFlags g) hb]
    rfl

/-- A conditional move reads no more of the flags than its condition (42_moves.md R170). -/
theorem State.condMove_setFlags {c : Cond} {s : State} {g : Flags} (hc : condHolds g c = condHolds s.flags c) (rA rB : Reg)
    (f : Flags) : ((s.setFlags g).condMove c rA rB).setFlags f = (s.condMove c rA rB).setFlags f := by
  rw [State.condMove_eq, State.condMove_eq, State.setFlags_flags, hc]
  split <;> rfl

/-- A jump reads no more of the flags than its condition (44_control.md R209). -/
theorem State.jump_setFlags {c : Cond} {s : State} {g : Flags} (hc : condHolds g c = condHolds s.flags c) (dest : Word)
    (f : Flags) : ((s.setFlags g).jump c dest).setFlags f = (s.jump c dest).setFlags f := by
  unfold State.jump
  rw [State.setFlags_flags, hc]
  rfl

/-! ## Who reads the flags -/

/-- An instruction outside the twelve leaves the same state from any flags, but for the flags themselves. -/
theorem exec_setFlags_of_not_readsFlags {i : Instr} (hr : readsFlags i = false) (s : State) (g f : Flags) :
    ∃ t u, exec i s = .next t ∧ exec i (s.setFlags g) = .next u ∧ u.setFlags f = t.setFlags f := by
  cases i
  case cmovle | cmovl | cmove | cmovne | cmovge | cmovg | jle | jl | je | jne | jge | jg => cases hr
  case halt | nop | irmovq | addq | subq | andq | xorq => exact ⟨_, _, rfl, rfl, rfl⟩
  case rrmovq rA rB => exact ⟨_, _, rfl, rfl, State.condMove_setFlags (c := .always) rfl rA rB f⟩
  case jmp dest => exact ⟨_, _, rfl, rfl, State.jump_setFlags (c := .always) rfl dest f⟩
  case rmmovq | call | pushq => exact ⟨_, _, rfl, rfl, State.storeThen_setFlags (fun _ => rfl) s _ _⟩
  case mrmovq | ret | popq => exact ⟨_, _, rfl, rfl, State.loadThen_setFlags (fun _ _ => rfl) s _⟩
  case iotrap0 | iotrap1 | iotrap2 | iotrap3 | iotrap4 | iotrap5 => exact ⟨_, _, rfl, rfl, s.ioTrap_setFlags g f _⟩

@[simp] theorem State.jump_pc (s : State) (c : Cond) (dest : Word) :
    (s.jump c dest).pc = if condHolds s.flags c then dest else s.pc + 9 := rfl

@[simp] theorem State.condMove_reg_dest (s : State) (c : Cond) (rA rB : Reg) :
    (s.condMove c rA rB).reg rB = if condHolds s.flags c then s.reg rA else s.reg rB := by
  rw [State.condMove_eq]
  split <;> simp

/-- One pair of flag values separates all six conditions: ZF and SF set make `le`, `l` and `e` hold, all clear the other three
(40_execution_model.md R136). -/
theorem condHolds_separates {c : Cond} (hc : c ≠ .always) :
    condHolds ⟨true, true, false⟩ c ≠ condHolds ⟨false, false, false⟩ c := by
  cases c
  case always => exact absurd rfl hc
  all_goals decide

/-- A choice between different values tells its condition. -/
theorem ite_ne_ite_of_ne {α : Type} {p q : Bool} {a b : α} (hpq : p ≠ q) (hab : a ≠ b) :
    (if p then a else b) ≠ (if q then a else b) := by
  cases p <;> cases q
  case false.false | true.true => exact absurd rfl hpq
  case true.false => exact hab
  case false.true => exact hab.symm

/-- Settles O23: the writers by their common rules, the non-readers by the shared operations, the twelve readers by one pair of flag
values that separates their conditions. -/
theorem flagWritersAndReaders : Obligations.FlagWritersAndReaders := by
  refine ⟨?arith, fun s => ⟨_, rfl, rfl⟩, ?keep, ?decodeFault, fun i s g hr => exec_setFlags_of_not_readsFlags hr s g s.flags,
    ?condition, ?readers⟩
  case arith =>
    intro p hp rA rB s
    have hmem : ∃ op, p = (opqInstr op, op) := by
      simp only [List.mem_cons, List.not_mem_nil, or_false] at hp
      rcases hp with rfl | rfl | rfl | rfl
      exacts [⟨.add, rfl⟩, ⟨.sub, rfl⟩, ⟨.and, rfl⟩, ⟨.xor, rfl⟩]
    obtain ⟨op, rfl⟩ := hmem
    exact ⟨_, exec_opqInstr op rA rB s, s.arith_flags op rA rB⟩
  case keep =>
    intro i s hw
    obtain ⟨t, ht⟩ := exec_answers_next i s
    exact ⟨t, ht, exec_flags_of_not_writesFlags hw ht⟩
  case decodeFault =>
    intro s f ha hf
    exact ⟨_, step_of_decode_fault ha hf, s.takeDecodeFault_flags f⟩
  case condition =>
    intro c s g hc
    exact ⟨fun rA rB => ⟨_, _, exec_cmovInstr .., exec_cmovInstr .., State.condMove_setFlags hc rA rB s.flags⟩,
      fun d => ⟨_, _, exec_jumpInstr .., exec_jumpInstr .., State.jump_setFlags hc d s.flags⟩⟩
  case readers =>
    intro c hc
    refine ⟨⟨true, true, false⟩, ⟨false, false, false⟩, fun d s hd => ?_, fun rA rB s hne => ?_⟩
    · refine ⟨_, _, exec_jumpInstr .., exec_jumpInstr .., ?_⟩
      simp only [State.jump_pc, State.setFlags_flags, State.setFlags_pc]
      exact ite_ne_ite_of_ne (condHolds_separates hc) hd
    · refine ⟨_, _, exec_cmovInstr .., exec_cmovInstr .., ?_⟩
      simp only [State.condMove_reg_dest, State.setFlags_flags, State.setFlags_reg]
      exact ite_ne_ite_of_ne (condHolds_separates hc) hne

end Sys2Proof.Machine

/-! The family `20_memory.md`: what `MemRead` returns (R56) and what `MemWrite` stores (R57). -/

namespace Sys2Proof.Machine

/-- `MemRead` of any number of bytes is the sum of byte `k` times `2^(8k)` (20_memory.md R56). -/
theorem Memory.natLE_readBytes (m : Memory) (a n : Nat) :
    natLE (m.readBytes a n) = ((List.range n).map fun k => (m.read (a + k)).toNat * 2 ^ (8 * k)).sum := by
  induction n generalizing a with
  | zero => rfl
  | succ n ih =>
    have shift (k : Nat) : (m.read (a + (k + 1))).toNat * 2 ^ (8 * (k + 1)) =
        256 * ((m.read (a + 1 + k)).toNat * 2 ^ (8 * k)) := by
      rw [Nat.add_right_comm a 1 k, Nat.add_assoc]
      ring
    simp only [Memory.readBytes, natLE, ih, List.range_succ_eq_map, List.map_cons, List.map_map, List.sum_cons,
      Function.comp_def, shift, List.sum_map_mul_left]
    simp

/-- Eight bytes fill a word: the number of a loaded word is that of its bytes (20_memory.md R56). -/
theorem Memory.readWord_toNat (m : Memory) (a : Nat) : (m.readWord a).toNat = natLE (m.readBytes a 8) := by
  have hlt := natLE_lt (m.readBytes a 8)
  rw [Memory.readBytes_length] at hlt
  exact Nat.mod_eq_of_lt hlt

/-- Byte `k` of a word is its bits `8k+7 .. 8k` (20_memory.md R56, R57). -/
theorem wordBytes_getD (v : Word) {k : Nat} (hk : k < 8) : (wordBytes v).getD k 0 = v.extractLsb' (8 * k) 8 := by
  rw [wordBytes, bytesLE_getD _ _ _ hk]
  apply BitVec.eq_of_toNat_eq
  simp only [BitVec.toNat_ofNat, BitVec.extractLsb'_toNat, Nat.shiftRight_eq_div_pow, Nat.pow_mul]

/-- Bits `8k+7 .. 8k` of a loaded word are the byte at `a + k` (20_memory.md R56). -/
theorem Memory.extractLsb'_readWord (m : Memory) (a : Nat) {k : Nat} (hk : k < 8) :
    (m.readWord a).extractLsb' (8 * k) 8 = m.read (a + k) := by
  rw [← wordBytes_getD _ hk, Memory.wordBytes_readWord, Memory.readBytes_getD _ _ _ _ hk]

/-- Settles O50: the sum by induction on the number of bytes, the bits by the bytes of the loaded word. -/
theorem readIsTheLittleEndianSum : Obligations.ReadIsTheLittleEndianSum := fun m a n _ =>
  ⟨m.natLE_readBytes a n, m.readWord_toNat a, fun _ hk => m.extractLsb'_readWord a hk⟩

/-- Settles O51: what a store holds inside its `n` bytes and what it leaves outside. -/
theorem writeStoresLittleEndianBytes : Obligations.WriteStoresLittleEndianBytes := fun _ _ _ v h _ =>
  ⟨fun _ hk => Memory.read_writeLE_inside h v hk, fun _ hb => Memory.read_writeLE_outside h v hb⟩

end Sys2Proof.Machine

/-! The family `30_encoding.md`: what decodes (R94, R97), what a decode reads (R86, R103). -/

namespace Sys2Proof

open Sys2Proof.Machine

/-! ## The families with members -/

@[simp] theorem opcode_cmovInstr (c : Cond) (rA rB : Reg) : (cmovInstr c rA rB).opcode = .cmov c := by cases c <;> rfl
@[simp] theorem opcode_opqInstr (op : AluOp) (rA rB : Reg) : (opqInstr op rA rB).opcode = .opq op := by cases op <;> rfl
@[simp] theorem opcode_jumpInstr (c : Cond) (d : Word) : (jumpInstr c d).opcode = .jump c := by cases c <;> rfl
@[simp] theorem opcode_iotrapInstr (n : Fin 6) : (iotrapInstr n).opcode = .iotrap n := by revert n; decide

@[simp] theorem regFields_cmovInstr (c : Cond) (rA rB : Reg) : (cmovInstr c rA rB).regFields = (rA.code, rB.code) := by
  cases c <;> rfl
@[simp] theorem regFields_opqInstr (op : AluOp) (rA rB : Reg) : (opqInstr op rA rB).regFields = (rA.code, rB.code) := by
  cases op <;> rfl
@[simp] theorem const_jumpInstr (c : Cond) (d : Word) : (jumpInstr c d).const = d := by cases c <;> rfl

/-! ## An opcode and its fields, and the instruction they give -/

@[simp] theorem regOf_rnone : regOf rnone = none := rfl

/-- The instruction of an opcode and its fields has that opcode; in a format with a register byte its register fields are the ones
given, in a format with a constant its constant is (30_encoding.md R83, R93, R94). -/
theorem fields_of_instrOf {op : Opcode} {a b : Option Reg} {c : Word} {i : Instr} (h : instrOf op a b c = .ok i) :
    i.opcode = op ∧ (op.length = 2 ∨ op.length = 10 → regOf i.regFields.1 = a ∧ regOf i.regFields.2 = b) ∧
      (op.length = 9 ∨ op.length = 10 → i.const = c) := by
  cases op
  case halt | nop | ret | call => cases h; simp [Opcode.length, Instr.opcode, Instr.const]
  case iotrap | jump => cases h; simp [Opcode.length]
  case cmov | opq => cases a <;> cases b <;> cases h; simp [Opcode.length]
  case pushq | popq | irmovq | rmmovq | mrmovq =>
    cases a <;> cases b <;> cases h <;> simp [Instr.opcode, Opcode.length, Instr.regFields, Instr.const, regField]

/-- An instruction's opcode and fields give the instruction back; a format without a register byte or without a constant does not
look at them (30_encoding.md R83, R94). -/
theorem instrOf_fields {i : Instr} {a b : Option Reg} {c : Word}
    (hr : i.length = 2 ∨ i.length = 10 → regOf i.regFields.1 = a ∧ regOf i.regFields.2 = b)
    (hc : i.length = 9 ∨ i.length = 10 → i.const = c) : instrOf i.opcode a b c = .ok i := by
  cases i
  case halt | nop | ret | iotrap0 | iotrap1 | iotrap2 | iotrap3 | iotrap4 | iotrap5 => rfl
  case jmp | jle | jl | je | jne | jge | jg | call => obtain rfl := hc (.inl rfl); rfl
  case rrmovq | cmovle | cmovl | cmove | cmovne | cmovge | cmovg | addq | subq | andq | xorq | pushq | popq =>
    obtain ⟨rfl, rfl⟩ := hr (.inl rfl)
    simp only [Instr.regFields, regOf_code, regOf_rnone]
    rfl
  case irmovq | rmmovq | mrmovq =>
    obtain ⟨rfl, rfl⟩ := hr (.inr rfl)
    obtain rfl := hc (.inr rfl)
    simp only [Instr.regFields, regOf_code, regOf_regField, regOf_rnone]
    rfl

/-! ## A decode succeeds exactly on an encoding -/

/-- A register byte is known by the two operands it names (30_encoding.md R84, R89). -/
theorem regOf_nibbles_iff {b1 : Byte} {f g : BitVec 4} :
    regOf f = regOf (hiNibble b1) ∧ regOf g = regOf (loNibble b1) ↔ byteOf f g = b1 := by
  constructor
  · rintro ⟨hf, hg⟩
    rw [← regField_regOf f, ← regField_regOf g, byteOf_regFields hf.symm hg.symm]
  · rintro rfl
    simp

/-- A constant is known by its eight bytes (30_encoding.md R85). -/
theorem wordBytes_prefix_iff {v : Word} {bs : List Byte} (h : 8 ≤ bs.length) :
    wordBytes v <+: bs ↔ v = wordOfBytes (bs.take 8) := by
  rw [List.prefix_iff_eq_take, wordBytes_length]
  constructor
  · intro hv
    rw [← hv, wordOfBytes_wordBytes]
  · rintro rfl
    exact wordBytes_wordOfBytes _ (by simpa using h)

/-- Where the span is there, the operands decode to the instructions whose encoding they spell (30_encoding.md R89, R94). -/
theorem decodeOperands_eq_ok_iff {op : Opcode} {rest : List Byte} {i : Instr} (hl : op.length ≤ rest.length + 1) :
    decodeOperands op rest = .ok i ↔ i.opcode = op ∧ encode i <+: byteOf op.icode op.ifun :: rest := by
  have hfields : decodeOperands op rest = .ok i ↔ i.opcode = op ∧
      (op.length = 2 ∨ op.length = 10 → byteOf i.regFields.1 i.regFields.2 = rest.headD 0) ∧
      (op.length = 9 ∨ op.length = 10 → i.const = constOf op rest) := by
    simp only [← regOf_nibbles_iff]
    exact ⟨fields_of_instrOf, by rintro ⟨rfl, hr, hc⟩; exact instrOf_fields hr hc⟩
  rw [hfields]
  refine and_congr_right ?_
  rintro rfl
  obtain ⟨tl, he, h1, h2, h9, h10⟩ := encode_eq i
  rw [he, List.cons_prefix_cons]
  rcases i.length_cases with h | h | h | h <;> rw [Instr.length] at h <;> rw [h] at hl ⊢
  · simp [h1 h]
  · obtain ⟨b1, t, rfl⟩ := List.exists_cons_of_length_pos (show 0 < rest.length by omega)
    simp [h2 h]
  · simp [h9 h, constOf, h, wordBytes_prefix_iff (show 8 ≤ rest.length by omega)]
  · obtain ⟨b1, t, rfl⟩ := List.exists_cons_of_length_pos (show 0 < rest.length by omega)
    rw [List.length_cons] at hl
    simp [h10 h, constOf, h, List.cons_prefix_cons, wordBytes_prefix_iff (show 8 ≤ t.length by omega)]

/-- Bytes decode to an instruction exactly when they begin with its encoding (30_encoding.md R94, R101). -/
theorem decode_eq_ok_iff {bs : List Byte} {i : Instr} : decode bs = .ok i ↔ encode i <+: bs := by
  constructor
  · intro h
    rcases decode_cases bs with ⟨-, hd⟩ | ⟨b0, rest, rfl, ⟨f, -, hd⟩ | ⟨op, ho, ⟨-, hd⟩ | ⟨hl, hd⟩⟩⟩ <;> rw [hd] at h
    case inr.inr.inr =>
      rw [← byteOf_of_decodeOpcode ho]
      exact ((decodeOperands_eq_ok_iff hl).1 h).2
    all_goals cases h
  · rintro ⟨tail, rfl⟩
    obtain ⟨tl, he, -⟩ := encode_eq i
    have hl : i.opcode.length ≤ (tl ++ tail).length + 1 := by
      have := encode_length i
      rw [he, List.length_cons, Instr.length] at this
      rw [List.length_append]
      omega
    rw [he, List.cons_append, decode_of_span (decodeOpcode_byteOf i.opcode) hl, decodeOperands_eq_ok_iff hl]
    exact ⟨rfl, tail, by rw [he, List.cons_append]⟩

@[simp] theorem decode_encode (i : Instr) : decode (encode i) = .ok i := decode_eq_ok_iff.2 (List.prefix_refl _)

/-! ## What a refusal depends on -/

/-- A refusal depends on the number of bytes, on the first byte unless there is none, and for a register constraint on the second
(30_encoding.md R87, R88, R103). -/
theorem decode_error_congr {bs bs' : List Byte} {f : DecodeFault} (h : decode bs = .error f) (hl : bs'.length = bs.length)
    (h0 : f ≠ .startOutOfBounds → bs'.getD 0 0 = bs.getD 0 0)
    (h1 : f = .registerConstraint → bs'.getD 1 0 = bs.getD 1 0) : decode bs' = .error f := by
  rcases decode_cases bs with ⟨rfl, -⟩ | ⟨b0, rest, rfl, hd⟩
  · rwa [List.length_eq_zero_iff.1 hl]
  obtain ⟨b0', rest', rfl⟩ := List.exists_cons_of_length_pos (show 0 < bs'.length by rw [hl]; simp)
  have hrest : rest'.length = rest.length := Nat.succ.inj hl
  rcases hd with ⟨g, ho, hd⟩ | ⟨op, ho, ⟨hs, hd⟩ | ⟨hs, hd⟩⟩ <;> rw [hd] at h
  · obtain rfl := Except.error.inj h
    obtain rfl : b0' = b0 := h0 (by rcases decodeOpcode_error ho with rfl | rfl <;> decide)
    exact decode_of_opcode_error ho rest'
  · obtain rfl := Except.error.inj h
    obtain rfl : b0' = b0 := h0 (by decide)
    exact decode_of_short ho (hrest ▸ hs)
  · obtain rfl := decodeOperands_error h
    obtain rfl : b0' = b0 := h0 (by decide)
    rw [decode_of_span ho (hrest ▸ hs)]
    exact decodeOperands_error_congr h (by simpa [List.headD_eq_head?_getD, List.head?_eq_getElem?] using h1 rfl)

/-! ## The rows of the opcode table -/

open Laws.OpcodeRow in
/-- Every encoding is one of its instruction's row (30_encoding.md R97). -/
theorem encode_meets_row (i : Instr) : Statement i := by
  cases i
  exacts [halt, nop, rrmovq _ _, cmovle _ _, cmovl _ _, cmove _ _, cmovne _ _, cmovge _ _, cmovg _ _, irmovq _ _, rmmovq _ _ _,
    mrmovq _ _ _, addq _ _, subq _ _, andq _ _, xorq _ _, jmp _, jle _, jl _, je _, jne _, jge _, jg _, call _, ret, pushq _,
    popq _, iotrap0, iotrap1, iotrap2, iotrap3, iotrap4, iotrap5]

theorem Instr.row_length (i : Instr) : i.row.length = i.length := by
  obtain ⟨-, hl, -⟩ := encode_meets_row i
  rw [← hl, encode_length]

/-- A row looks at no byte past its own length (30_encoding.md R97). -/
theorem Instr.row_width_le (i : Instr) : (if i.row.wide then 2 else 1) ≤ i.length := by
  cases i <;> simp [Instr.row, Instr.length, Instr.opcode, Opcode.length]

/-- What begins with an instruction's encoding meets its row (30_encoding.md R97). -/
theorem matchesBytes_of_encode_prefix {i : Instr} {bs : List Byte} (h : encode i <+: bs) : i.row.matchesBytes bs = true := by
  obtain ⟨hm, -, -⟩ := encode_meets_row i
  rwa [List.prefix_iff_eq_take.1 h, encode_length, TableRow.matchesBytes_take _ _ _ i.row_width_le] at hm

/-- What a 16-bit row asks of its two bytes (30_encoding.md R97). -/
theorem TableRow.matchesBytes_wide {r : TableRow} {b0 : Byte} {rest : List Byte} (hw : r.wide = true)
    (h : r.matchesBytes (b0 :: rest) = true) : ∃ b1 t, rest = b1 :: t ∧
      b0 &&& r.mask.extractLsb' 8 8 = r.pattern.extractLsb' 8 8 ∧ b1 &&& r.mask.extractLsb' 0 8 = r.pattern.extractLsb' 0 8 ∧
      ∀ c ∈ r.constraints, c.holds b1 = true := by
  unfold TableRow.matchesBytes at h
  rw [hw] at h
  cases rest with
  | nil => cases h
  | cons b1 t =>
    rw [Bool.and_eq_true, beq_iff_eq, List.all_eq_true] at h
    obtain ⟨hmask, hcon⟩ := h
    obtain ⟨h0, h1⟩ := bytes_of_masked hmask
    exact ⟨b1, t, rfl, h0, h1, hcon⟩

/-- What an 8-bit row asks of its byte (30_encoding.md R97). -/
theorem TableRow.matchesBytes_narrow {r : TableRow} {b0 : Byte} {rest : List Byte} (hw : r.wide = false)
    (h : r.matchesBytes (b0 :: rest) = true) : b0.setWidth 16 &&& r.mask = r.pattern := by
  unfold TableRow.matchesBytes at h
  rw [hw] at h
  exact eq_of_beq h

/-- A row's mask covers the whole opcode byte (30_encoding.md R97). -/
theorem Instr.row_mask_wide {i : Instr} (h : i.row.wide = true) : i.row.mask.extractLsb' 8 8 = BitVec.allOnes 8 := by
  cases i <;> simp [Instr.row] at h ⊢

theorem Instr.row_mask_narrow {i : Instr} (h : i.row.wide = false) : i.row.mask = 0xFF := by
  cases i <;> simp [Instr.row] at h ⊢

/-- Byte strings that meet one row begin with one byte (30_encoding.md R97). -/
theorem head_eq_of_matchesBytes {i : Instr} {b c : Byte} {bs cs : List Byte} (hb : i.row.matchesBytes (b :: bs) = true)
    (hc : i.row.matchesBytes (c :: cs) = true) : b = c := by
  cases hw : i.row.wide with
  | true =>
    obtain ⟨-, -, -, hb0, -, -⟩ := TableRow.matchesBytes_wide hw hb
    obtain ⟨-, -, -, hc0, -, -⟩ := TableRow.matchesBytes_wide hw hc
    rw [Instr.row_mask_wide hw, BitVec.and_allOnes] at hb0 hc0
    exact hb0.trans hc0.symm
  | false =>
    have low : ∀ x : Byte, (x.setWidth 16 &&& 0xFF : BitVec 16) = x.setWidth 16 := by decide
    have h16 := (TableRow.matchesBytes_narrow hw hb).trans (TableRow.matchesBytes_narrow hw hc).symm
    rw [Instr.row_mask_narrow hw, low, low] at h16
    simpa using congrArg (BitVec.setWidth 8) h16

/-- Bytes that meet an instruction's row begin with its opcode byte (30_encoding.md R95, R97). -/
theorem opcodeByte_of_matchesBytes {i : Instr} {b0 : Byte} {rest : List Byte} (h : i.row.matchesBytes (b0 :: rest) = true) :
    byteOf i.opcode.icode i.opcode.ifun = b0 := by
  obtain ⟨henc, -, -⟩ := encode_meets_row i
  obtain ⟨tl, he, -⟩ := encode_eq i
  rw [he] at henc
  exact head_eq_of_matchesBytes henc h

/-- Operands that meet an instruction's row decode, to an instruction of that row (30_encoding.md R93, R97). -/
theorem decodeOperands_of_matchesBytes {i : Instr} {b0 : Byte} {rest : List Byte}
    (h : i.row.matchesBytes (b0 :: rest) = true) : ∃ j, decodeOperands i.opcode rest = .ok j ∧ j.row = i.row := by
  have operands (op : Opcode) (b1 : Byte) (t : List Byte) : decodeOperands op (b1 :: t) =
    instrOf op (regOf (hiNibble b1)) (regOf (loNibble b1)) (constOf op (b1 :: t)) := rfl
  cases i
  case halt | nop | ret | iotrap0 | iotrap1 | iotrap2 | iotrap3 | iotrap4 | iotrap5 | jmp | jle | jl | je | jne | jge | jg | call =>
    exact ⟨_, rfl, rfl⟩
  all_goals obtain ⟨b1, t, rfl, -, h1, hc⟩ := TableRow.matchesBytes_wide rfl h
  case rrmovq | cmovle | cmovl | cmove | cmovne | cmovge | cmovg | addq | subq | andq | xorq =>
    obtain ⟨a, ha⟩ := regOf_of_ne_rnone (hc .rANotSentinel (by simp [Instr.row]))
    obtain ⟨b, hb⟩ := regOf_of_ne_rnone (hc .rBNotSentinel (by simp [Instr.row]))
    rw [operands, ha, hb]
    exact ⟨_, rfl, rfl⟩
  case irmovq =>
    have sentinel : ∀ c : Byte, c &&& 0xF0 = 0xF0 → regOf (hiNibble c) = none := by decide
    obtain ⟨b, hb⟩ := regOf_of_ne_rnone (hc .rBNotSentinel (by simp [Instr.row]))
    rw [operands, sentinel b1 (by simpa [Instr.row] using h1), hb]
    exact ⟨_, rfl, rfl⟩
  case rmmovq | mrmovq =>
    obtain ⟨a, ha⟩ := regOf_of_ne_rnone (hc .rANotSentinel (by simp [Instr.row]))
    rw [operands, ha]
    exact ⟨_, rfl, rfl⟩
  case pushq | popq =>
    have sentinel : ∀ c : Byte, c &&& 0x0F = 0x0F → regOf (loNibble c) = none := by decide
    obtain ⟨a, ha⟩ := regOf_of_ne_rnone (hc .rANotSentinel (by simp [Instr.row]))
    rw [operands, ha, sentinel b1 (by simpa [Instr.row] using h1)]
    exact ⟨_, rfl, rfl⟩

/-- Settles O54: a row's mask and constraints are the opcode check and the register-byte check, its length is the span check. -/
theorem tableRowsSayWhatDecodes : Obligations.TableRowsSayWhatDecodes := by
  intro i bs
  rw [Instr.row_length]
  constructor
  · rintro ⟨hm, hl⟩
    obtain ⟨b0, rest, rfl⟩ := List.exists_cons_of_length_pos (i.length_pos.trans hl)
    obtain ⟨j, hj, hrow⟩ := decodeOperands_of_matchesBytes hm
    refine ⟨j, ?_, hrow⟩
    rw [← opcodeByte_of_matchesBytes hm, decode_of_span (decodeOpcode_byteOf i.opcode) hl, hj]
  · rintro ⟨j, hd, hrow⟩
    have hp := decode_eq_ok_iff.1 hd
    rw [← Instr.row_length, ← hrow, Instr.row_length, ← encode_length]
    exact ⟨matchesBytes_of_encode_prefix hp, hp.length_le⟩

end Sys2Proof

namespace Sys2Proof.Machine

/-! ## The fetch -/

/-- A fetch gives an instruction exactly when its span is in memory and holds its encoding (30_encoding.md R88, R94). -/
theorem State.fetch_eq_ok_iff {s : State} {i : Instr} :
    s.fetch = .ok i ↔ s.inBounds s.pc i.length ∧ s.mem.readBytes s.pc.toNat i.length = encode i := by
  rw [State.fetch, decode_eq_ok_iff, List.prefix_iff_eq_take, encode_length]
  constructor
  · intro h
    have hlen := congrArg List.length h
    rw [encode_length, List.length_take, State.fetchWindow_length] at hlen
    have hb : s.inBounds s.pc i.length := by
      have := i.length_pos
      unfold State.inBounds
      omega
    exact ⟨hb, by rw [h, State.fetchWindow_take i.length_le hb]⟩
  · rintro ⟨hb, h⟩
    rw [← h, State.fetchWindow_take i.length_le hb]

/-- A window that starts past the end of memory is empty (30_encoding.md R86). -/
theorem State.fetchWindow_eq_nil {s : State} (h : s.config.memSize ≤ s.pc.toNat) : s.fetchWindow = [] := by
  rw [← List.length_eq_zero_iff, State.fetchWindow_length]
  omega

/-- Two windows over one stretch of memory agree where memory does. -/
theorem State.fetchWindow_getD_congr {s t : State} (hp : t.pc = s.pc) (hm : t.config.memSize = s.config.memSize) {k : Nat}
    (h : t.byteAt (s.pc.toNat + k) = s.byteAt (s.pc.toNat + k)) : t.fetchWindow.getD k 0 = s.fetchWindow.getD k 0 := by
  unfold State.fetchWindow
  rw [hp, hm]
  by_cases hk : k < min maxLength (s.config.memSize - s.pc.toNat)
  · rw [Memory.readBytes_getD _ _ _ _ hk, Memory.readBytes_getD _ _ _ _ hk]
    exact h
  · rw [List.getD_eq_default, List.getD_eq_default] <;> rwa [Memory.readBytes_length, ← Nat.not_lt]

/-- `valP` of a span inside a legal memory does not wrap (20_memory.md R53, 30_encoding.md R94). -/
theorem State.valP_toNat {s : State} {n : Nat} (hc : s.config.Valid) (hb : s.inBounds s.pc n) :
    (s.valP n).toNat = s.pc.toNat + n := by
  have hlt : s.pc.toNat + n < 2 ^ 64 := hb.trans_lt (hc.2.trans_lt (by decide))
  rw [State.valP, BitVec.toNat_add, BitVec.toNat_ofNat, Nat.add_mod_mod, Nat.mod_eq_of_lt hlt]

/-- Settles O7: past the end of memory the decoder is given no byte. -/
theorem fetchStartOutOfBoundsIsAddressFault : Obligations.FetchStartOutOfBoundsIsAddressFault := by
  intro s m h
  refine ⟨_, ?_, rfl, rfl⟩
  rw [State.fetch, State.fetchWindow_eq_nil (s := s.setMem m) h, decode_nil]

/-- Settles O8: a fetch that succeeds has its span in memory, and legal memory ends before addresses wrap. -/
theorem successfulDecodeStaysInMemory : Obligations.SuccessfulDecodeStaysInMemory := by
  intro s i hc hf
  obtain ⟨hb, hm⟩ := State.fetch_eq_ok_iff.1 hf
  have hv := State.valP_toNat hc hb
  exact ⟨hm, hb, hv, hv.trans_le hb⟩

/-- Settles O9: a success by its span, a refusal by the two bytes it can depend on. -/
theorem decodeReadsOnlyItsSpan : Obligations.DecodeReadsOnlyItsSpan := by
  refine ⟨fun s t hp hm => ⟨fun i hf hbytes => ?_, fun f hf h0 h1 => ?_⟩, fun _ _ => decode_encode _, fun _ => decode_encode _,
    fun _ _ _ => ⟨decode_encode _, decode_encode _⟩⟩
  · obtain ⟨hb, henc⟩ := State.fetch_eq_ok_iff.1 hf
    rw [State.fetch_eq_ok_iff, State.inBounds, hp, hm]
    exact ⟨hb, (Memory.readBytes_congr hbytes).trans henc⟩
  · refine decode_error_congr hf ?_ (fun hne => ?_) fun hreg => ?_
    · rw [State.fetchWindow_length, State.fetchWindow_length, hp, hm]
    · exact State.fetchWindow_getD_congr hp hm (h0 hne)
    · exact State.fetchWindow_getD_congr hp hm (h1 hreg)

end Sys2Proof.Machine

/-! The family `40_execution_model.md`: the jumps by their conditions (R136). -/

namespace Sys2Proof.Machine

/-- A jump writes the pc alone: the destination or the next instruction (44_control.md R209). -/
theorem State.jump_eq (s : State) (c : Cond) (dest : Word) :
    s.jump c dest = { s with pc := if condHolds s.flags c then dest else s.pc + 9 } := rfl

/-- Settles O37: each jump with its formula is the jump of one condition, and the seven share the rule of `State.jump`. -/
theorem jumps : Obligations.Jumps := by
  intro p hp d s
  have hcond : ∃ c : Cond, p = (jumpInstr c, fun f => condHolds f c) := by
    simp only [List.mem_cons, List.not_mem_nil, or_false] at hp
    rcases hp with rfl | rfl | rfl | rfl | rfl | rfl | rfl
    exacts [⟨.always, rfl⟩, ⟨.le, rfl⟩, ⟨.l, rfl⟩, ⟨.e, rfl⟩, ⟨.ne, rfl⟩, ⟨.ge, rfl⟩, ⟨.g, rfl⟩]
  obtain ⟨c, rfl⟩ := hcond
  rw [exec_jumpInstr, State.jump_eq]

end Sys2Proof.Machine

/-! The family `46_iotrap.md`: the causes of ADDRESS_FAULT, the input trap's slot among them (60_exceptions.md R252). -/

namespace Sys2Proof

open Sys2Proof.Machine

/-! ## The decoder's refusals for an address -/

/-- The start-address fault is the answer to no bytes at all, and to nothing else (30_encoding.md R86). -/
theorem decode_eq_startOutOfBounds_iff {bs : List Byte} : decode bs = .error .startOutOfBounds ↔ bs = [] := by
  refine ⟨fun h => ?_, fun h => by rw [h, decode_nil]⟩
  rcases decode_cases bs with ⟨hnil, -⟩ | ⟨b0, rest, -, ⟨f, ho, hd⟩ | ⟨op, -, ⟨-, hd⟩ | ⟨-, hd⟩⟩⟩
  · exact hnil
  all_goals rw [hd] at h
  · obtain rfl := Except.error.inj h
    rcases decodeOpcode_error ho with e | e <;> cases e
  · cases h
  · cases decodeOperands_error h

/-- The opcode map lists legal bytes only (30_encoding.md R95, R99). -/
theorem Opcode.byteOf_mem_legalOpcodeBytes (op : Opcode) : byteOf op.icode op.ifun ∈ legalOpcodeBytes := by
  cases op with
  | cmov c => cases c <;> decide
  | opq o => cases o <;> decide
  | jump c => cases c <;> decide
  | iotrap n => revert n; decide
  | _ => decide

/-- The opcode check passes legal bytes only (30_encoding.md R87, R99). -/
theorem legal_of_decodeOpcode {b0 : Byte} {op : Opcode} (h : decodeOpcode b0 = .ok op) : b0 ∈ legalOpcodeBytes :=
  byteOf_of_decodeOpcode h ▸ op.byteOf_mem_legalOpcodeBytes

/-- The span check refuses a legal opcode byte whose family is longer than the bytes left (30_encoding.md R88, R96). -/
theorem decode_eq_spanOutOfBounds_iff {b0 : Byte} {rest : List Byte} : decode (b0 :: rest) = .error .spanOutOfBounds ↔
    b0 ∈ legalOpcodeBytes ∧ rest.length + 1 < lengthOfCode (hiNibble b0) := by
  by_cases hb : b0 ∈ legalOpcodeBytes
  · obtain ⟨op, ho, hlen⟩ := decodeOpcode_of_legal hb
    rw [← hlen, and_iff_right hb]
    refine ⟨fun h => ?_, decode_of_short ho⟩
    by_contra hl
    rw [decode_of_span ho (Nat.le_of_not_lt hl)] at h
    cases decodeOperands_error h
  · refine ⟨fun h => ?_, fun h => absurd h.1 hb⟩
    cases ho : decodeOpcode b0 with
    | ok op => exact absurd (legal_of_decodeOpcode ho) hb
    | error f =>
      rw [decode_of_opcode_error ho] at h
      obtain rfl := Except.error.inj h
      rcases decodeOpcode_error ho with e | e <;> cases e

end Sys2Proof

namespace Sys2Proof.Machine

/-- A1 and A2 are the decode faults that give ADDRESS_FAULT (60_exceptions.md R252). -/
theorem decodeStatus_eq_addressFault_iff {f : DecodeFault} :
    decodeStatus f = .addressFault ↔ f = .startOutOfBounds ∨ f = .spanOutOfBounds := by
  cases f <;> decide

theorem lengthOfCode_le_maxLength (c : BitVec 4) : lengthOfCode c ≤ maxLength := by
  revert c; decide

/-- The window over memory is shorter than a family exactly when the family's span leaves memory (30_encoding.md R88). -/
theorem State.fetchWindow_length_lt_iff {s : State} (h : s.pc.toNat < s.config.memSize) {n : Nat} (hn : n ≤ maxLength) :
    s.fetchWindow.length < n ↔ ¬ s.inBounds s.pc n := by
  rw [State.fetchWindow_length]
  unfold State.inBounds
  omega

/-- A fetch fails with ADDRESS_FAULT exactly when the pc is out of memory (A1) or a legal opcode's span is (A2). -/
theorem State.fetch_addressFault_iff (s : State) : (∃ f, s.fetch = .error f ∧ decodeStatus f = .addressFault) ↔
    s.config.memSize ≤ s.pc.toNat ∨
    (s.byteAt s.pc.toNat ∈ legalOpcodeBytes ∧ ¬ s.inBounds s.pc (lengthOfCode (hiNibble (s.byteAt s.pc.toNat)))) := by
  have hnames : (∃ f, s.fetch = .error f ∧ decodeStatus f = .addressFault) ↔
      s.fetch = .error .startOutOfBounds ∨ s.fetch = .error .spanOutOfBounds := by
    simp only [decodeStatus_eq_addressFault_iff, and_or_left, exists_or, exists_eq_right]
  rw [hnames]
  unfold State.fetch
  by_cases hpc : s.config.memSize ≤ s.pc.toNat
  · exact iff_of_true (.inl (decode_eq_startOutOfBounds_iff.2 (State.fetchWindow_eq_nil hpc))) (.inl hpc)
  · have hin := Nat.lt_of_not_le hpc
    have hcons := State.fetchWindow_cons hin
    rw [or_iff_right hpc, or_iff_right (by rw [decode_eq_startOutOfBounds_iff, hcons]; exact List.cons_ne_nil _ _),
      ← State.fetchWindow_length_lt_iff hin (lengthOfCode_le_maxLength _), hcons]
    exact decode_eq_spanOutOfBounds_iff

/-! ## The end of the step -/

/-- A step ends in ADDRESS_FAULT when its instruction raised it, or completed AOK with the pc out of memory (60_exceptions.md
R259). -/
theorem State.endOfStep_addressFault_iff (s : State) : s.endOfStep.stat = .addressFault ↔
    s.stat = .addressFault ∨ (s.stat = .aok ∧ s.config.memSize ≤ s.pc.toNat) := by
  rcases s.endOfStep_cases with ⟨ha, hpc, h⟩ | ⟨hno, h⟩ <;> rw [h]
  · exact iff_of_true rfl (.inr ⟨ha, hpc⟩)
  · exact (or_iff_left hno).symm

/-! ## The faults of stage 2 -/

/-- A3 to A6: the instruction's data access is not all in memory (60_exceptions.md R252). -/
def AccessLeavesMemory (i : Instr) (s : State) : Prop := ∃ a, dataAddress i s = some a ∧ ¬ s.inBounds a 8

/-- A8: the instruction is an input trap, the host answers it, and its slot is not all in memory (46_iotrap.md R233). -/
def AnsweredSlotLeavesMemory (i : Instr) (s : State) : Prop :=
  ∃ n v, trapNumber i = some n ∧ inputBytes (s.trapKind n) ≠ 0 ∧ Config.hostAnswer s.inputDraws = some v ∧
    ¬ s.inBounds s.config.trapSlot (inputBytes (s.trapKind n))

/-- An IOTRAP has no data access (20_memory.md R51). -/
theorem dataAddress_of_trapNumber {i : Instr} {n : Fin 6} (h : trapNumber i = some n) (s : State) : dataAddress i s = none := by
  cases i
  case iotrap0 | iotrap1 | iotrap2 | iotrap3 | iotrap4 | iotrap5 => rfl
  all_goals cases h

/-- From an AOK state an IOTRAP raises AddressFault only by its slot. -/
theorem exec_trap_addressFault_iff {i : Instr} {s u : State} {n : Fin 6} (ha : s.stat = .aok) (hu : exec i s = .next u)
    (hn : trapNumber i = some n) : u.stat = .addressFault ↔ AnsweredSlotLeavesMemory i s := by
  have hslot : AnsweredSlotLeavesMemory i s ↔ inputBytes (s.trapKind n) ≠ 0 ∧ (∃ v, Config.hostAnswer s.inputDraws = some v) ∧
      ¬ s.inBounds s.config.trapSlot (inputBytes (s.trapKind n)) := by
    simp [AnsweredSlotLeavesMemory, hn]
  rw [hslot]
  obtain ⟨-, -, -, ⟨h0, -, hs, -⟩ | ⟨hk, hs, -⟩ |
    ⟨-, h0, ⟨v, -, hb, hs, -⟩ | ⟨v, hv, hb, hs, -⟩ | ⟨hv, hs, -⟩⟩⟩ := exec_of_trap hu hn <;> rw [hs]
  · simp [ha, h0]
  · simp [hk, inputBytes]
  · simp [ha, hb]
  · exact iff_of_true rfl ⟨h0, ⟨v, hv⟩, hb⟩
  · simp [hv]

/-- From an AOK state an instruction raises AddressFault exactly by its data access or by an answered input trap's slot. -/
theorem exec_addressFault_iff {i : Instr} {s u : State} (ha : s.stat = .aok) (hu : exec i s = .next u) :
    u.stat = .addressFault ↔ AccessLeavesMemory i s ∨ AnsweredSlotLeavesMemory i s := by
  cases hn : trapNumber i with
  | some n =>
    have hd : ¬ AccessLeavesMemory i s := by simp [AccessLeavesMemory, dataAddress_of_trapNumber hn]
    rw [or_iff_right hd, exec_trap_addressFault_iff ha hu hn]
  | none =>
    have hslot : ¬ AnsweredSlotLeavesMemory i s := by simp [AnsweredSlotLeavesMemory, hn]
    rw [or_iff_left hslot]
    cases hd : dataAddress i s with
    | none =>
      obtain ⟨-, -, -, -, -, -, hs, -⟩ := exec_of_no_access hu hd hn
      rw [hs, ha]
      split <;> simp [AccessLeavesMemory, hd]
    | some a =>
      have hacc : AccessLeavesMemory i s ↔ ¬ s.inBounds a 8 := by simp [AccessLeavesMemory, hd]
      rw [hacc]
      rcases exec_of_access hu hd with ⟨hb, rfl⟩ | ⟨hb, -, -, -, -, -, hs, -⟩
      · exact iff_of_true rfl hb
      · rw [hs, ha]
        exact iff_of_false (by decide) (not_not_intro hb)

/-- A step that runs an instruction ends in ADDRESS_FAULT exactly by A3 to A6, A7 or A8. -/
theorem exec_endOfStep_addressFault_iff {i : Instr} {s u : State} (ha : s.stat = .aok) (hu : exec i s = .next u) :
    u.endOfStep.stat = .addressFault ↔ AccessLeavesMemory i s ∨
      (∃ w, exec i s = .next w ∧ w.stat = .aok ∧ s.config.memSize ≤ w.pc.toNat) ∨ AnsweredSlotLeavesMemory i s := by
  obtain ⟨hc, -⟩ := exec_memory hu
  have hend : (∃ w, exec i s = .next w ∧ w.stat = .aok ∧ s.config.memSize ≤ w.pc.toNat) ↔
      u.stat = .aok ∧ u.config.memSize ≤ u.pc.toNat := by
    simp [hu, hc]
  rw [State.endOfStep_addressFault_iff, exec_addressFault_iff ha hu, hend, or_assoc, or_comm (a := AnsweredSlotLeavesMemory i s)]

/-- Settles O17: a failed decode faults by A1 or A2, a decoded instruction by the rest, and a fetch is only one of the two. -/
theorem addressFaultCauses : Obligations.AddressFaultCauses := by
  intro s t hstep
  rw [← or_assoc, ← s.fetch_addressFault_iff]
  obtain ⟨ha, ⟨f, hf, rfl⟩ | ⟨i, u, hf, hu, rfl⟩⟩ := step_cases hstep
  · simp [hf, State.takeDecodeFault_eq]
  · rw [exec_endOfStep_addressFault_iff ha hu]
    simp [hf, AccessLeavesMemory, AnsweredSlotLeavesMemory]

end Sys2Proof.Machine

/-! The family `other`, encoding: what the decoder gives back and what it refuses (30_encoding.md R87 to R94, R99). -/

namespace Sys2Proof

open Sys2Proof.Machine

/-- Settles O2: bytes that begin with an encoding decode to its instruction. -/
theorem decodeOfEncodeIsTheInstruction : Obligations.DecodeOfEncodeIsTheInstruction := fun i rest =>
  ⟨i.wellFormed_eq_true, decode_eq_ok_iff.2 (List.prefix_append (encode i) rest)⟩

/-- Settles O3: bytes that decode begin with the encoding, and an encoding has its instruction's length. -/
theorem decodedBytesAreTheEncoding : Obligations.DecodedBytesAreTheEncoding := by
  intro bs i h
  rw [← encode_length, ← List.prefix_iff_eq_take.1 (decode_eq_ok_iff.1 h)]

/-- Settles O1: the decoder run on the thirteen words. -/
theorem writtenWordsDecodeAsTheirInstructions : Obligations.WrittenWordsDecodeAsTheirInstructions := by
  unfold Obligations.WrittenWordsDecodeAsTheirInstructions
  decide

/-! ## The opcode check -/

/-- The legal opcode bytes are those of a defined family whose sub-function is in range (30_encoding.md R87, R90, R99). -/
theorem mem_legalOpcodeBytes_iff {b0 : Byte} :
    b0 ∈ legalOpcodeBytes ↔ (hiNibble b0).toNat ≤ 0xC ∧ (loNibble b0).toNat ≤ maxIfun (hiNibble b0) := by
  revert b0
  decide

/-- An illegal opcode byte is refused, by its family before its sub-function, whatever follows (30_encoding.md R87). -/
theorem decode_of_illegal {b0 : Byte} (h : b0 ∉ legalOpcodeBytes) (rest : List Byte) : decode (b0 :: rest) =
    .error (if 0xC < (hiNibble b0).toNat then .undefinedFamily else .subFunctionOutOfRange) := by
  have key : ∀ b : Byte, b ∉ legalOpcodeBytes → (match decodeOpcode b with
      | .ok _ => false
      | .error f => f == if 0xC < (hiNibble b).toNat then .undefinedFamily else .subFunctionOutOfRange) = true := by
    decide
  have hb := key b0 h
  cases ho : decodeOpcode b0 with
  | ok op => rw [ho] at hb; cases hb
  | error f => rw [ho] at hb; rw [decode_of_opcode_error ho, ← eq_of_beq hb]

/-- A legal opcode byte is refused for its span or its register byte only (60_exceptions.md R257). -/
theorem decode_error_of_legal {b0 : Byte} {rest : List Byte} {f : DecodeFault} (hb : b0 ∈ legalOpcodeBytes)
    (h : decode (b0 :: rest) = .error f) : f = .spanOutOfBounds ∨ f = .registerConstraint := by
  obtain ⟨op, ho, -⟩ := decodeOpcode_of_legal hb
  by_cases hl : op.length ≤ rest.length + 1
  · rw [decode_of_span ho hl] at h
    exact .inr (decodeOperands_error h)
  · rw [decode_of_short ho (Nat.lt_of_not_le hl)] at h
    exact .inl (Except.error.inj h).symm

/-- Settles O4: an illegal byte is refused by one of the two checks, a legal one by neither. -/
theorem illegalOpcodeBytesAreRefused : Obligations.IllegalOpcodeBytesAreRefused := by
  intro b0 rest
  refine ⟨fun hfam => ?_, fun hfam hsub => ?_, fun hb => ?_, fun h hb => ?_⟩
  · rw [decode_of_illegal (by rw [mem_legalOpcodeBytes_iff]; omega), if_pos hfam]
  · rw [decode_of_illegal (by rw [mem_legalOpcodeBytes_iff]; omega), if_neg (Nat.not_lt.2 hfam)]
  · rw [decode_of_illegal hb]
    split <;> simp
  · rcases h with h | h <;> rcases decode_error_of_legal hb h with e | e <;> cases e

/-! ## The span check and the register byte -/

/-- Settles O5: the span check is made of every legal opcode byte and of no other. -/
theorem spanOverrunIsRefused : Obligations.SpanOverrunIsRefused := by
  intro b0 rest hb
  rw [decode_eq_spanOutOfBounds_iff, and_iff_right hb]

/-- An operand that is present is not the sentinel, an absent one is (10_state.md R22). -/
@[simp] theorem regField_beq_rnone (r : Option Reg) : (regField r == rnone) = r.isNone := by
  rcases r with _ | r
  · rfl
  · cases r <;> rfl

/-- The instruction of an opcode and its operands is refused exactly when the fields break the family's row (30_encoding.md R93). -/
theorem instrOf_eq_error_iff {op : Opcode} {a b : Option Reg} {c v : Word} : instrOf op a b c = .error .registerConstraint ↔
    Fields.registersLegal ⟨op.icode, op.ifun, regField a, regField b, v⟩ = false := by
  cases op <;> cases a <;> cases b <;> simp [instrOf, Fields.registersLegal, Opcode.icode, constrained, twoRegs, firstReg,
    secondReg, regAndBase, bne]

/-- The family code of a legal opcode byte is its high nibble, its sub-function the low one (30_encoding.md R80). -/
theorem nibbles_of_decodeOpcode {b0 : Byte} {op : Opcode} (h : decodeOpcode b0 = .ok op) :
    hiNibble b0 = op.icode ∧ loNibble b0 = op.ifun := by
  rw [← byteOf_of_decodeOpcode h, hiNibble_byteOf, loNibble_byteOf]
  exact ⟨rfl, rfl⟩

/-- The register-field check refuses a legal opcode byte whose span is there and whose register byte breaks the family's row
(30_encoding.md R93, 60_exceptions.md R257). -/
theorem decode_eq_registerConstraint_iff {b0 : Byte} {rest : List Byte} (hb : b0 ∈ legalOpcodeBytes) :
    decode (b0 :: rest) = .error .registerConstraint ↔ lengthOfCode (hiNibble b0) ≤ rest.length + 1 ∧
      Fields.registersLegal ⟨hiNibble b0, loNibble b0, hiNibble (rest.headD 0), loNibble (rest.headD 0), 0⟩ = false := by
  obtain ⟨op, ho, hlen⟩ := decodeOpcode_of_legal hb
  obtain ⟨hhi, hlo⟩ := nibbles_of_decodeOpcode ho
  rw [← hlen]
  by_cases hl : op.length ≤ rest.length + 1
  · rw [decode_of_span ho hl, and_iff_right hl, decodeOperands, instrOf_eq_error_iff, regField_regOf, regField_regOf, hhi, hlo]
  · rw [decode_of_short ho (Nat.lt_of_not_le hl)]
    simp [hl]

/-- Settles O6: of the two refusals left to a legal byte the span's is excluded by the bytes that follow. -/
theorem registerByteIsCheckedByFamily : Obligations.RegisterByteIsCheckedByFamily := by
  intro b0 b1 rest hb hl f
  have hreg : decode (b0 :: b1 :: rest) = .error .registerConstraint ↔ f.registersLegal = false :=
    (decode_eq_registerConstraint_iff hb).trans (and_iff_right hl)
  refine ⟨hreg.2, fun hlegal => ?_⟩
  cases hd : decode (b0 :: b1 :: rest) with
  | ok i => exact ⟨i, rfl⟩
  | error g =>
    rcases decode_error_of_legal hb hd with rfl | rfl
    · obtain ⟨-, hshort⟩ := decode_eq_spanOutOfBounds_iff.1 hd
      exact absurd hl (Nat.not_le.2 hshort)
    · exact absurd (hreg.1 hd) (by simp [hlegal])

end Sys2Proof

/-! The family `other`, the step: what it runs, how it faults and how it ends (40_execution_model.md R130, 60_exceptions.md R251
to R259). -/

namespace Sys2Proof.Machine

/-! ## The step of an encoded instruction -/

/-- The end-of-step check as the rule writes it (60_exceptions.md R259). -/
theorem State.endOfStep_eq (s : State) : s.endOfStep =
    if s.stat = .aok ∧ s.config.memSize ≤ s.pc.toNat then { s with stat := .addressFault } else s := rfl

/-- Settles O10: the step of a fetched instruction is exec and the end-of-step check. -/
theorem stepRunsTheFetchedInstruction : Obligations.StepRunsTheFetchedInstruction := by
  intro s i ha hf
  obtain ⟨t, ht⟩ := exec_answers_next i s
  rw [step_of_fetch ha hf ht, ht, State.endOfStep_eq]

/-- A stretch of memory is a list of bytes when each of its bytes is. -/
theorem Memory.readBytes_eq_of_read {m : Memory} {a : Nat} {bs : List Byte}
    (h : ∀ k, k < bs.length → m.read (a + k) = bs.getD k 0) : m.readBytes a bs.length = bs := by
  refine List.ext_getElem (m.readBytes_length a bs.length) fun k hk hk' => ?_
  rw [← List.getD_eq_getElem _ 0 hk, ← List.getD_eq_getElem _ 0 hk', Memory.readBytes_getD _ _ _ _ hk', h k hk']

/-- Settles O11: the bytes at the pc are the encoding, so the fetch gives the instruction. -/
theorem stepRunsTheEncodedInstruction : Obligations.StepRunsTheEncodedInstruction := by
  intro s i ha hb hbytes
  rw [← encode_length] at hbytes
  have hf : s.fetch = .ok i :=
    State.fetch_eq_ok_iff.2 ⟨hb, encode_length i ▸ Memory.readBytes_eq_of_read hbytes⟩
  obtain ⟨t, ht⟩ := exec_answers_next i s
  exact ⟨t, ht, step_of_fetch ha hf ht⟩

/-! ## Decode faults -/

/-- Settles O13: a failed decode is taken as it is; the pc and the status by the name of the fault. -/
theorem decodeFaultEndsTheRun : Obligations.DecodeFaultEndsTheRun := by
  intro s f ha hf
  rw [step_of_decode_fault ha hf, State.takeDecodeFault_eq]
  constructor
  · rintro (rfl | rfl) <;> rfl
  · rintro (rfl | rfl | rfl) <;> rfl

/-- A window over the last byte of memory is that byte. -/
theorem State.fetchWindow_of_last {s : State} (h : s.pc.toNat + 1 = s.config.memSize) :
    s.fetchWindow = [s.byteAt s.pc.toNat] := by
  have hone : s.config.memSize - s.pc.toNat = 1 := by omega
  rw [State.fetchWindow_cons (by omega), hone]
  rfl

/-- A one-byte format has no register byte to break a row (30_encoding.md R83, R93). -/
theorem registersLegal_of_lengthOfCode_le_one {f : Fields} (h : lengthOfCode f.icode ≤ 1) : f.registersLegal = true := by
  unfold lengthOfCode at h
  unfold Fields.registersLegal
  split at h <;> simp_all

/-- A legal opcode byte's family has a length (30_encoding.md R96). -/
theorem lengthOfCode_pos_of_legal {b0 : Byte} (h : b0 ∈ legalOpcodeBytes) : 0 < lengthOfCode (hiNibble b0) := by
  obtain ⟨op, -, hlen⟩ := decodeOpcode_of_legal h
  have := op.length_cases
  omega

/-- Settles O14: with one byte in the window, an illegal byte is refused first, then a longer family for its span. -/
theorem lastByteOfMemory : Obligations.LastByteOfMemory := by
  intro s ha hlast
  have hf : s.fetch = decode [s.byteAt s.pc.toNat] := by rw [State.fetch, State.fetchWindow_of_last hlast]
  refine ⟨fun hb => ?_, fun hb hlen => ?_, fun hb hlen => ?_⟩
  · rw [decode_of_illegal hb] at hf
    obtain ⟨-, hinstr⟩ := decodeFaultEndsTheRun s _ ha hf
    exact hinstr (by split <;> simp)
  · have hpos := lengthOfCode_pos_of_legal hb
    have hspan : decode [s.byteAt s.pc.toNat] = .error .spanOutOfBounds :=
      decode_eq_spanOutOfBounds_iff.2 ⟨hb, by rw [List.length_nil]; omega⟩
    obtain ⟨haddr, -⟩ := decodeFaultEndsTheRun s _ ha (hf.trans hspan)
    exact haddr (.inr rfl)
  · rw [hf]
    cases hd : decode [s.byteAt s.pc.toNat] with
    | ok i => exact ⟨i, rfl⟩
    | error f =>
      rcases decode_error_of_legal hb hd with rfl | rfl
      · obtain ⟨-, hshort⟩ := decode_eq_spanOutOfBounds_iff.1 hd
        exact absurd hshort (by simp [hlen])
      · obtain ⟨-, hreg⟩ := (decode_eq_registerConstraint_iff hb).1 hd
        rw [registersLegal_of_lengthOfCode_le_one hlen.le] at hreg
        cases hreg

/-! ## INSTRUCTION_FAULT -/

/-- No instruction raises INSTRUCTION_FAULT: it keeps the status, halts, or raises AddressFault (60_exceptions.md R252, R253). -/
theorem exec_stat_cases {i : Instr} {s u : State} (hu : exec i s = .next u) :
    u.stat = s.stat ∨ u.stat = .halted ∨ u.stat = .addressFault := by
  cases hn : trapNumber i with
  | some n =>
    obtain ⟨-, -, -, ⟨-, -, hs, -⟩ | ⟨-, hs, -⟩ | ⟨-, -, ⟨-, -, -, hs, -⟩ | ⟨-, -, -, hs, -⟩ | ⟨-, hs, -⟩⟩⟩ :=
      exec_of_trap hu hn
    exacts [.inl hs, .inr (.inl hs), .inl hs, .inr (.inr hs), .inr (.inl hs)]
  | none =>
    cases hd : dataAddress i s with
    | none =>
      obtain ⟨-, -, -, -, -, -, hs, -⟩ := exec_of_no_access hu hd hn
      rw [hs]
      split <;> simp
    | some a =>
      rcases exec_of_access hu hd with ⟨-, rfl⟩ | ⟨-, -, -, -, -, -, hs, -⟩
      exacts [.inr (.inr rfl), .inl hs]

/-- The end-of-step check makes no status but ADDRESS_FAULT (60_exceptions.md R259). -/
theorem State.endOfStep_stat_eq_iff {s : State} {v : Status} (ha : v ≠ .aok) (hv : v ≠ .addressFault) :
    s.endOfStep.stat = v ↔ s.stat = v := by
  rcases s.endOfStep_cases with ⟨hs, -, h⟩ | ⟨-, h⟩ <;> rw [h]
  rw [hs]
  exact iff_of_false hv.symm ha.symm

/-- I1 to I3 are the decode faults that give INSTRUCTION_FAULT (60_exceptions.md R253). -/
theorem decodeStatus_eq_instructionFault_iff {f : DecodeFault} : decodeStatus f = .instructionFault ↔
    f = .undefinedFamily ∨ f = .subFunctionOutOfRange ∨ f = .registerConstraint := by
  cases f <;> decide

/-- Byte `k` of a window is the byte `k` after the pc (10_state.md R38). -/
theorem State.fetchWindow_getD {s : State} {k : Nat} (hk : k < maxLength) (h : s.pc.toNat + k < s.config.memSize) :
    s.fetchWindow.getD k 0 = s.byteAt (s.pc.toNat + k) := by
  refine Memory.readBytes_getD _ _ _ _ ?_
  omega

/-- The opcode check at an address passes the legal bytes (30_encoding.md R87). -/
theorem State.byteAt_legal_iff {s : State} {a : Nat} : s.byteAt a ∈ legalOpcodeBytes ↔
    (s.fieldsAt a).definedFamily = true ∧ (s.fieldsAt a).subFunctionInRange = true := by
  rw [mem_legalOpcodeBytes_iff, Fields.definedFamily, Fields.subFunctionInRange, decide_eq_true_iff, decide_eq_true_iff]
  rfl

/-- A fetch of a legal opcode byte is refused as a register constraint exactly by I3 (60_exceptions.md R253, R257). -/
theorem State.fetch_registerConstraint_iff {s : State} (hpc : s.pc.toNat < s.config.memSize)
    (hb : s.byteAt s.pc.toNat ∈ legalOpcodeBytes) : s.fetch = .error .registerConstraint ↔
      s.inBounds s.pc (lengthOfCode (s.fieldsAt s.pc.toNat).icode) ∧ (s.fieldsAt s.pc.toNat).registersLegal = false := by
  obtain ⟨rest, hrest⟩ : ∃ rest, s.fetchWindow = s.byteAt s.pc.toNat :: rest := ⟨_, State.fetchWindow_cons hpc⟩
  have hspan := not_congr (State.fetchWindow_length_lt_iff hpc (lengthOfCode_le_maxLength (hiNibble (s.byteAt s.pc.toNat))))
  rw [not_not, Nat.not_lt, hrest, List.length_cons] at hspan
  rw [State.fetch, hrest, decode_eq_registerConstraint_iff hb, hspan]
  refine and_congr_right fun hin => ?_
  by_cases hlen : lengthOfCode (hiNibble (s.byteAt s.pc.toNat)) ≤ 1
  · rw [registersLegal_of_lengthOfCode_le_one hlen, registersLegal_of_lengthOfCode_le_one hlen]
  · have hsecond := State.fetchWindow_getD (s := s) (k := 1) (by decide) (by unfold State.inBounds at hin; omega)
    rw [hrest, List.getD_cons_succ, ← List.headD_eq_getD] at hsecond
    rw [hsecond]
    rfl

/-- A fetch fails with INSTRUCTION_FAULT exactly by I1, I2 or I3 at a pc in memory (60_exceptions.md R253, R257). -/
theorem State.fetch_instructionFault_iff (s : State) : (∃ f, s.fetch = .error f ∧ decodeStatus f = .instructionFault) ↔
    s.inBounds s.pc 1 ∧ ((s.fieldsAt s.pc.toNat).definedFamily = false ∨ (s.fieldsAt s.pc.toNat).subFunctionInRange = false ∨
      (s.inBounds s.pc (lengthOfCode (s.fieldsAt s.pc.toNat).icode) ∧ (s.fieldsAt s.pc.toNat).registersLegal = false)) := by
  simp only [decodeStatus_eq_instructionFault_iff]
  by_cases hpc : s.pc.toNat < s.config.memSize
  · rw [and_iff_right (show s.inBounds s.pc 1 from hpc)]
    by_cases hb : s.byteAt s.pc.toNat ∈ legalOpcodeBytes
    · obtain ⟨hfam, hsub⟩ := State.byteAt_legal_iff.1 hb
      rw [← State.fetch_registerConstraint_iff hpc hb, hfam, hsub, or_iff_right (by decide), or_iff_right (by decide)]
      refine ⟨fun ⟨f, hf, hname⟩ => ?_, fun h => ⟨_, h, .inr (.inr rfl)⟩⟩
      rw [State.fetch, State.fetchWindow_cons hpc] at hf
      rcases decode_error_of_legal hb hf with rfl | rfl
      · simp at hname
      · rw [State.fetch, State.fetchWindow_cons hpc, hf]
    · have hfields := mt State.byteAt_legal_iff.2 hb
      rw [not_and_or, Bool.not_eq_true, Bool.not_eq_true] at hfields
      refine iff_of_true ⟨_, by rw [State.fetch, State.fetchWindow_cons hpc, decode_of_illegal hb], ?_⟩ (or_assoc.1 (.inl hfields))
      split <;> simp
  · rw [State.fetch, State.fetchWindow_eq_nil (Nat.le_of_not_lt hpc), decode_nil]
    simp [State.inBounds, hpc]

/-- Settles O15: a failed decode by its name; an executed instruction never. -/
theorem instructionFaultCauses : Obligations.InstructionFaultCauses := by
  intro s t hstep f
  rw [← s.fetch_instructionFault_iff]
  obtain ⟨ha, ⟨g, hf, rfl⟩ | ⟨i, u, hf, hu, rfl⟩⟩ := step_cases hstep
  · simp [hf, State.takeDecodeFault_eq]
  · rw [State.endOfStep_stat_eq_iff (by decide) (by decide)]
    refine iff_of_false (fun hs => ?_) (by simp [hf])
    rcases exec_stat_cases hu with h | h | h <;> simp [hs, ha] at h

/-! ## HALTED -/

/-- H2 and H3: the instruction is a trap of an unrecognised kind, or an input trap that the host fails (46_iotrap.md R233, R238). -/
def TrapHalts (i : Instr) (s : State) : Prop :=
  ∃ n, trapNumber i = some n ∧ (s.trapKind n = .unrecognised ∨
    ((s.trapKind n = .charIn ∨ s.trapKind n = .decIn) ∧ Config.hostAnswer s.inputDraws = none))

/-- From an AOK state an instruction halts exactly when it is HALT or a trap that halts (60_exceptions.md R254). -/
theorem exec_halted_iff {i : Instr} {s u : State} (ha : s.stat = .aok) (hu : exec i s = .next u) :
    u.stat = .halted ↔ i = .halt ∨ TrapHalts i s := by
  cases hn : trapNumber i with
  | some n =>
    have hi : i ≠ .halt := by rintro rfl; cases hn
    have htrap : TrapHalts i s ↔ s.trapKind n = .unrecognised ∨
        ((s.trapKind n = .charIn ∨ s.trapKind n = .decIn) ∧ Config.hostAnswer s.inputDraws = none) := by
      simp [TrapHalts, hn]
    rw [or_iff_right hi, htrap]
    obtain ⟨-, -, -, ⟨h0, hk, hs, -⟩ | ⟨hk, hs, -⟩ |
      ⟨hk, -, ⟨v, hv, -, hs, -⟩ | ⟨v, hv, -, hs, -⟩ | ⟨hv, hs, -⟩⟩⟩ := exec_of_trap hu hn <;> rw [hs]
    · have hin : ¬ (s.trapKind n = .charIn ∨ s.trapKind n = .decIn) := by
        rintro (h | h) <;> rw [h] at h0 <;> cases h0
      simp [ha, hk, hin]
    · simp [hk]
    · rcases hk with hk | hk <;> simp [ha, hk, hv]
    · rcases hk with hk | hk <;> simp [hk, hv]
    · simp [hk, hv]
  | none =>
    have htrap : ¬ TrapHalts i s := by simp [TrapHalts, hn]
    rw [or_iff_left htrap]
    cases hd : dataAddress i s with
    | none =>
      obtain ⟨-, -, -, -, -, -, hs, -⟩ := exec_of_no_access hu hd hn
      rw [hs, ha]
      split <;> simp [*]
    | some a =>
      have hi : i ≠ .halt := by rintro rfl; cases hd
      rcases exec_of_access hu hd with ⟨-, rfl⟩ | ⟨-, -, -, -, -, -, hs, -⟩
      · simp [hi]
      · simp [hs, ha, hi]

/-- Settles O16: HALT clears the flags, and a halting trap is no writer of them. -/
theorem haltedHasThreeCauses : Obligations.HaltedHasThreeCauses := by
  intro s t hstep
  obtain ⟨ha, ⟨f, hf, rfl⟩ | ⟨i, u, hf, hu, rfl⟩⟩ := step_cases hstep
  · have hs : (s.takeDecodeFault f).stat ≠ .halted := decodeStatus_ne_halted f
    simp [hf, hs]
  · simp only [hf, State.endOfStep_stat_eq_iff (v := .halted) (by decide) (by decide), State.endOfStep_flags,
      exec_halted_iff ha hu]
    refine ⟨?_, ?_, ?_⟩
    · simp [TrapHalts]
    · intro _ hhalt
      obtain rfl := Except.ok.inj hhalt
      obtain rfl := Host.Outcome.next.inj hu
      rfl
    · rintro (rfl | ⟨n, hn, -⟩) hne
      · exact absurd rfl hne
      · obtain ⟨-, -, hflags, -⟩ := exec_of_trap hu hn
        exact hflags

end Sys2Proof.Machine

/-! The family `other`, the invariant and what an instruction may write (60_exceptions.md R259, 10_state.md R23, R26). -/

namespace Sys2Proof.Machine

/-! ## The invariant -/

/-- What the end-of-step check leaves AOK has its pc in memory (60_exceptions.md R259). -/
theorem State.endOfStep_pc_lt {s : State} (h : s.endOfStep.stat = .aok) :
    s.endOfStep.pc.toNat < s.endOfStep.config.memSize := by
  rcases s.endOfStep_cases with ⟨-, -, e⟩ | ⟨hno, e⟩ <;> rw [e] at h ⊢
  · cases h
  · exact Nat.lt_of_not_le fun hpc => hno ⟨h, hpc⟩

/-- Settles O21: a step that stays AOK has passed the end-of-step check. -/
theorem aokStepLeavesPcInMemory : Obligations.AokStepLeavesPcInMemory := by
  intro s t hstep ht
  obtain ⟨-, ⟨f, -, rfl⟩ | ⟨i, u, -, -, rfl⟩⟩ := step_cases hstep
  · exact absurd ht (decodeStatus_ne_aok f)
  · exact State.endOfStep_pc_lt ht

/-- An instruction keeps the memory image canonical and inside the capacity, which it does not change (20_memory.md R50, R54). -/
theorem exec_keeps_image {i : Instr} {s u : State} (hwf : s.mem.wf) (hin : ∀ c ∈ s.mem, c.1 < s.config.memSize)
    (hu : exec i s = .next u) : u.config = s.config ∧ u.mem.wf ∧ ∀ c ∈ u.mem, c.1 < s.config.memSize := by
  obtain ⟨hc, hm | ⟨a, n, v, -, hm, hb⟩⟩ := exec_memory hu <;> rw [hm]
  · exact ⟨hc, hwf, hin⟩
  · refine ⟨hc, Memory.writeLE_wf hwf a n v, fun c hcell => ?_⟩
    rcases Memory.mem_writeLE hcell with h | ⟨-, h⟩
    · exact hin c h
    · exact h.trans_le hb

/-- Settles O18: a decode fault writes neither memory nor parameters, an instruction keeps the image, and the end-of-step check
looks after the pc. -/
theorem everyStepKeepsTheInvariant : Obligations.EveryStepKeepsTheInvariant := by
  intro s t ⟨hvalid, hwf, hin, _⟩ hstep
  have hpc := aokStepLeavesPcInMemory s t hstep
  obtain ⟨-, ⟨f, -, rfl⟩ | ⟨i, u, -, hu, rfl⟩⟩ := step_cases hstep
  · exact ⟨hvalid, hwf, hin, hpc⟩
  · obtain ⟨hc, hwf', hin'⟩ := exec_keeps_image hwf hin hu
    refine ⟨?_, ?_, ?_, hpc⟩ <;> simpa only [State.endOfStep_config, State.endOfStep_mem, hc]

theorem Memory.nil_wf : Memory.wf [] := ⟨List.Pairwise.nil, fun _ h => absurd h List.not_mem_nil⟩

/-- A launch meets the invariant when its parameters are legal, its entry point is in memory and its image canonical and in memory. -/
theorem State.launch_inv {c : Config} {entry : Word} {image : Memory} (hc : c.Valid) (he : entry.toNat < c.memSize)
    (hwf : image.wf) (hin : ∀ d ∈ image, d.1 < c.memSize) : (State.launch c entry image).Inv :=
  ⟨hc, hwf, hin, fun _ => he⟩

/-- Settles O19: reset is a launch with nothing loaded. -/
theorem resetMeetsTheInvariant : Obligations.ResetMeetsTheInvariant :=
  State.launch_inv (by decide) (by decide) Memory.nil_wf fun _ h => absurd h List.not_mem_nil

/-- Settles O20: the image lists its own addresses only, and each byte is read where it was put. -/
theorem launchMeetsTheInvariant : Obligations.LaunchMeetsTheInvariant := by
  intro c entry base bs hc he hfit s
  refine ⟨State.launch_inv hc he (imageOf_wf base bs) fun d hd => ?_, rfl, rfl, fun k hk => ?_⟩
  · rcases Memory.mem_writeBytes hd with h | ⟨-, h⟩
    · exact absurd h List.not_mem_nil
    · exact h.trans_le hfit
  · have hread := Memory.read_writeBytes Memory.nil_wf base bs (base + k)
    rwa [if_pos ⟨Nat.le_add_right base k, Nat.add_lt_add_left hk base⟩, Nat.add_sub_cancel_left] at hread

/-- Settles O22: the register file is a replicated zero, every other field is as reset writes it. -/
theorem resetValues : Obligations.ResetValues :=
  ⟨fun r => by cases r <;> rfl, rfl, rfl, rfl, fun _ => rfl, rfl, rfl, rfl, rfl, rfl, rfl, rfl⟩

/-! ## What an instruction may write -/

theorem State.reg_congr {s t : State} (h : t.regs = s.regs) (r : Reg) : t.reg r = s.reg r := by
  rw [State.reg, State.reg, h]

theorem State.byteAt_congr {s t : State} (h : t.mem = s.mem) (a : Nat) : t.byteAt a = s.byteAt a := by
  rw [State.byteAt, State.byteAt, h]

/-- An IOTRAP of a known kind goes on to the next byte (46_iotrap.md R230). -/
theorem pcAfter_of_trapNumber {i : Instr} {n : Fin 6} (h : trapNumber i = some n) (s : State) : pcAfter i s = s.pc + 1 := by
  cases i
  case iotrap0 | iotrap1 | iotrap2 | iotrap3 | iotrap4 | iotrap5 => rfl
  all_goals cases h

/-- Settles O24: the pc in each of the three shapes of an instruction. -/
theorem pcAfterEachInstruction : Obligations.PcAfterEachInstruction := by
  intro i s t ha hkind ht hfault
  cases hn : trapNumber i with
  | some n =>
    rw [pcAfter_of_trapNumber hn]
    obtain ⟨-, -, -, ⟨-, -, -, -, hpc⟩ | ⟨hk, -⟩ |
      ⟨-, -, ⟨-, -, -, -, -, hpc⟩ | ⟨-, -, -, hs, -⟩ | ⟨-, -, -, hpc⟩⟩⟩ := exec_of_trap ht hn
    · exact hpc
    · exact absurd hk (hkind n hn)
    · exact hpc
    · exact absurd hs hfault
    · exact hpc
  | none =>
    cases hd : dataAddress i s with
    | none =>
      obtain ⟨-, -, -, -, -, -, -, -, -, hpc⟩ := exec_of_no_access ht hd hn
      exact hpc
    | some a =>
      rcases exec_of_access ht hd with ⟨-, rfl⟩ | ⟨-, -, -, -, -, -, -, -, -, hpc, -⟩
      · exact absurd rfl hfault
      · exact hpc

/-- Settles O25: the registers in each of the three shapes of an instruction. -/
theorem onlyListedRegistersAreWritten : Obligations.OnlyListedRegistersAreWritten := by
  intro i s t ht r hr
  cases hn : trapNumber i with
  | some n =>
    obtain ⟨-, hregs, -⟩ := exec_of_trap ht hn
    exact State.reg_congr hregs r
  | none =>
    cases hd : dataAddress i s with
    | none =>
      obtain ⟨-, -, -, -, -, -, -, -, hregs, -⟩ := exec_of_no_access ht hd hn
      exact hregs r hr
    | some a =>
      rcases exec_of_access ht hd with ⟨-, rfl⟩ | ⟨-, -, -, -, -, -, -, -, hregs, -⟩
      · rfl
      · exact hregs r hr

/-- Settles O26: memory is as before or one store at the span. -/
theorem onlyStoredBytesChange : Obligations.OnlyStoredBytesChange := by
  intro i s t hwf ht
  obtain ⟨-, hm | ⟨a, n, v, hspan, hm, -⟩⟩ := exec_memory ht
  · exact ⟨fun _ _ _ b _ => State.byteAt_congr hm b, fun _ b => State.byteAt_congr hm b⟩
  · refine ⟨fun a' n' hspan' b hb => ?_, fun hnone => ?_⟩
    · obtain ⟨rfl, rfl⟩ : a = a' ∧ n = n' := by simpa [hspan] using hspan'
      rw [State.byteAt, hm, Memory.read_writeLE_outside hwf v hb, State.byteAt]
    · rw [hnone] at hspan
      cases hspan

/-- Settles O27: no instruction writes the parameters; without a trap neither shape of an instruction writes the host side. -/
theorem onlyIotrapReachesTheHost : Obligations.OnlyIotrapReachesTheHost := by
  intro i s t ht
  obtain ⟨hc, -⟩ := exec_memory ht
  refine ⟨hc, fun hn => ?_⟩
  cases hd : dataAddress i s with
  | none =>
    obtain ⟨-, -, hline, hout, hin, hdraws, -⟩ := exec_of_no_access ht hd hn
    exact ⟨hc, hline, hout, hin, hdraws⟩
  | some a =>
    rcases exec_of_access ht hd with ⟨-, rfl⟩ | ⟨-, -, hline, hout, hin, hdraws, -⟩
    · exact ⟨rfl, rfl, rfl, rfl, rfl⟩
    · exact ⟨hc, hline, hout, hin, hdraws⟩

end Sys2Proof.Machine

/-! The family `other`, HALT, NOP, the moves and the arithmetic (41_halt_nop.md, 42_moves.md, 43_arith.md, 40_execution_model.md
R136 to R139). -/

namespace Sys2Proof.Machine

/-- Settles O28: the three updates of `execHalt` are the three fields of the statement. -/
theorem haltStopsAndClearsFlags : Obligations.HaltStopsAndClearsFlags := fun _ => rfl

/-- Settles O29: `execNop` writes the pc alone. -/
theorem nopOnlyAdvances : Obligations.NopOnlyAdvances := fun _ => rfl

/-! ## Frames

Only a register write has to be carried through `SameRegsExcept`; every other clause of a frame is that of a field the update does
not write, and holds by definition. -/

theorem SameRegsExcept.refl (l : List Reg) (s : State) : SameRegsExcept l s s := fun _ _ => rfl

theorem SameRegsExcept.setReg {l : List Reg} {s t : State} (h : SameRegsExcept l s t) {r : Reg} (hr : r ∈ l) (v : Word) :
    SameRegsExcept l s (t.setReg r v) := by
  intro q hq
  rw [State.setReg_reg, if_neg (ne_of_mem_of_not_mem hr hq).symm, h q hq]

theorem SameRegsExcept.setPc {l : List Reg} {s t : State} (h : SameRegsExcept l s t) (v : Word) :
    SameRegsExcept l s (t.setPc v) := h

theorem SameHost.refl (s : State) : SameHost s s := ⟨rfl, rfl, rfl, rfl, rfl⟩

/-- One register and the pc written, and nothing else. -/
theorem State.setReg_setPc_frame (s : State) (r : Reg) (v p : Word) :
    ((s.setReg r v).setPc p).reg r = v ∧ SameRegsExcept [r] s ((s.setReg r v).setPc p) ∧
      ((s.setReg r v).setPc p).pc = p ∧ ((s.setReg r v).setPc p).flags = s.flags ∧ ((s.setReg r v).setPc p).stat = s.stat ∧
      SameBytes s ((s.setReg r v).setPc p) ∧ SameHost s ((s.setReg r v).setPc p) :=
  ⟨by simp, ((SameRegsExcept.refl [r] s).setReg (List.mem_singleton_self r) v).setPc p, rfl, rfl, rfl, fun _ => rfl, SameHost.refl s⟩

/-! ## Moves between registers -/

/-- A conditional move writes its destination in both cases, with the source's value or its own (42_moves.md R170). -/
theorem State.condMove_eq_setReg (s : State) (c : Cond) (rA rB : Reg) : s.condMove c rA rB =
    (s.setReg rB (if condHolds s.flags c then s.reg rA else s.reg rB)).setPc (s.pc + 2) := by
  rw [State.condMove_eq]
  split
  · rfl
  · rw [State.setReg_self]
    rfl

/-- Settles O30: each move with its formula is the move of one condition, and the seven share the rule of `State.condMove`. -/
theorem conditionalMoves : Obligations.ConditionalMoves := by
  intro p hp rA rB s
  have hcond : ∃ c : Cond, p = (cmovInstr c, fun f => condHolds f c) := by
    simp only [List.mem_cons, List.not_mem_nil, or_false] at hp
    rcases hp with rfl | rfl | rfl | rfl | rfl | rfl | rfl
    exacts [⟨.always, rfl⟩, ⟨.le, rfl⟩, ⟨.l, rfl⟩, ⟨.e, rfl⟩, ⟨.ne, rfl⟩, ⟨.ge, rfl⟩, ⟨.g, rfl⟩]
  obtain ⟨c, rfl⟩ := hcond
  exact ⟨_, (exec_cmovInstr c rA rB s).trans (by rw [State.condMove_eq_setReg]), s.setReg_setPc_frame rB _ _⟩

/-- Settles O31: one register and the pc written. -/
theorem immediateMove : Obligations.ImmediateMove := fun v rB s => ⟨_, rfl, s.setReg_setPc_frame rB v (s.pc + 10)⟩

/-! ## Loads and stores -/

theorem exec_rmmovq_inBounds {rA : Reg} {rB : Option Reg} {d : Word} {s : State}
    (h : s.inBounds (s.effectiveAddress rB d) 8) : exec (.rmmovq rA rB d) s =
      .next ((s.setMem (s.mem.writeLE (s.effectiveAddress rB d).toNat 8 (s.reg rA))).setPc (s.pc + 10)) :=
  congrArg Host.Outcome.next (State.storeThen_inBounds h _ _)

theorem exec_mrmovq_inBounds {rA : Reg} {rB : Option Reg} {d : Word} {s : State}
    (h : s.inBounds (s.effectiveAddress rB d) 8) : exec (.mrmovq rA rB d) s =
      .next ((s.setReg rA (s.mem.readWord (s.effectiveAddress rB d).toNat)).setPc (s.pc + 10)) :=
  congrArg Host.Outcome.next (State.loadThen_inBounds h _)

/-- The effective address as the rule writes it, an absent base counting 0 (40_execution_model.md R133, R134). -/
theorem State.effectiveAddress_eq (s : State) (rB : Option Reg) (d : Word) :
    s.effectiveAddress rB d = (match rB with | some r => s.reg r | none => 0) + d := by
  cases rB <;> rfl

/-- Settles O32: the store is one write of the image, read back byte by byte. -/
theorem storeInBounds : Obligations.StoreInBounds := fun _ rB d s hwf hb =>
  ⟨s.effectiveAddress_eq rB d, _, exec_rmmovq_inBounds hb, fun _ hk => Memory.read_writeLE_inside hwf _ hk,
    fun _ ha => Memory.read_writeLE_outside hwf _ ha, SameRegsExcept.refl [] s, rfl, rfl, rfl, SameHost.refl s⟩

/-- Settles O33: the destination takes the word of the image, whose bytes are those read. -/
theorem loadInBounds : Obligations.LoadInBounds := by
  intro rA rB d s hb
  obtain ⟨hreg, hframe⟩ := s.setReg_setPc_frame rA (s.mem.readWord (s.effectiveAddress rB d).toNat) (s.pc + 10)
  refine ⟨s.effectiveAddress_eq rB d, _, exec_mrmovq_inBounds hb, fun k hk => ?_, hframe⟩
  rw [hreg, Memory.extractLsb'_readWord _ _ hk, State.byteAt]

/-! ## Arithmetic -/

@[simp] theorem State.arith_reg_dest (s : State) (op : AluOp) (rA rB : Reg) :
    (s.arith op rA rB).reg rB = aluResult op (s.reg rA) (s.reg rB) := by
  simp [State.arith]

/-- ZF and SF as the rule writes them, from the result (40_execution_model.md R138). -/
theorem aluFlags_eq (op : AluOp) (a b : Word) :
    aluFlags op a b = ⟨decide (aluResult op a b = 0), (aluResult op a b).getLsbD 63, aluOverflow op a b⟩ := by
  rw [aluFlags, Word.sign, BitVec.msb_eq_getLsbD_last]
  rfl

/-- Settles O34: each instruction with its formulas is the one of one operation, and the four share the rule of `State.arith`. -/
theorem arithmeticResults : Obligations.ArithmeticResults := by
  intro p hp rA rB s
  have hop : ∃ op : AluOp, p.1 = opqInstr op ∧ p.2.1 = aluResult op ∧
      ∀ a b, p.2.2 a b (aluResult op a b) = aluOverflow op a b := by
    simp only [List.mem_cons, List.not_mem_nil, or_false] at hp
    rcases hp with rfl | rfl | rfl | rfl
    exacts [⟨.add, rfl, rfl, fun _ _ => rfl⟩, ⟨.sub, rfl, rfl, fun _ _ => rfl⟩, ⟨.and, rfl, rfl, fun _ _ => rfl⟩,
      ⟨.xor, rfl, rfl, fun _ _ => rfl⟩]
  obtain ⟨op, hinstr, hres, hof⟩ := hop
  rw [hinstr, hres]
  refine ⟨_, exec_opqInstr op rA rB s, s.arith_reg_dest op rA rB, ?_, ?_, rfl, rfl, fun _ => rfl, SameHost.refl s⟩
  · exact ((SameRegsExcept.refl [rB] s).setReg (List.mem_singleton_self rB) (aluResult op _ _)).setPc (s.pc + 2)
  · rw [State.arith_flags, State.arith_reg_dest, hof, aluFlags_eq]

/-- OF of addq is the library's signed overflow of the sum (40_execution_model.md R138). -/
theorem aluOverflow_add (a b : Word) : aluOverflow .add a b = b.saddOverflow a := by
  rw [BitVec.saddOverflow_eq, aluOverflow, Word.sign, Word.sign, Word.sign]
  cases a.msb <;> cases b.msb <;> rfl

/-- OF of subq is the library's signed overflow of the difference (40_execution_model.md R138). -/
theorem aluOverflow_sub (a b : Word) : aluOverflow .sub a b = b.ssubOverflow a := by
  rw [BitVec.ssubOverflow_eq, aluOverflow, Word.sign, Word.sign, Word.sign]
  cases a.msb <;> cases b.msb <;> simp

/-- Settles O35: the sign rules of R138 are the library's overflow predicates, which are stated over the integers. -/
theorem overflowIsExactSignedOverflow : Obligations.OverflowIsExactSignedOverflow := by
  intro rA rB s
  refine ⟨⟨_, rfl, ?_⟩, ⟨_, rfl, ?_⟩⟩
  · simp only [State.arith_flags, aluFlags, aluOverflow_add, BitVec.saddOverflow, Bool.or_eq_true, decide_eq_true_eq]
    omega
  · simp only [State.arith_flags, aluFlags, aluOverflow_sub, BitVec.ssubOverflow, Bool.or_eq_true, decide_eq_true_eq]
    omega

/-- After a subtraction SF and OF differ exactly when the second operand is below the first: an overflow inverts the sign
(40_execution_model.md R136, R139). -/
theorem sign_ne_overflow_sub_iff (a b : Word) : (b - a).sign ≠ aluOverflow .sub a b ↔ b.toInt < a.toInt := by
  have ha := a.toInt_lt
  have ha' := a.le_toInt
  have hb := b.toInt_lt
  have hb' := b.le_toInt
  rw [aluOverflow_sub, Word.sign, BitVec.msb_eq_toInt, BitVec.toInt_sub, BitVec.ssubOverflow, Int.bmod_def, Ne, Bool.eq_iff_iff]
  simp only [Bool.or_eq_true, decide_eq_true_eq]
  omega

/-- After a subtraction ZF says that the operands are equal (43_arith.md R192). -/
theorem aluFlags_sub_zf_iff (a b : Word) : (aluFlags .sub a b).zf = true ↔ b = a := by
  rw [aluFlags, beq_iff_eq, aluResult, sub_eq_zero]

/-- Settles O36: the six conditions are made of ZF, which says equal, and of whether SF and OF differ, which says below. -/
theorem subtractThenConditionsCompare : Obligations.SubtractThenConditionsCompare := by
  intro rA rB s
  refine ⟨_, rfl, ?_⟩
  rw [State.arith_flags]
  have hz := aluFlags_sub_zf_iff (s.reg rA) (s.reg rB)
  have hl : (aluFlags .sub (s.reg rA) (s.reg rB)).sf ≠ (aluFlags .sub (s.reg rA) (s.reg rB)).of ↔ _ :=
    sign_ne_overflow_sub_iff (s.reg rA) (s.reg rB)
  have hge := not_congr hl
  rw [not_not, Int.not_lt] at hge
  have hint : s.reg rB = s.reg rA ↔ (s.reg rB).toInt = (s.reg rA).toInt := BitVec.toInt_inj.symm
  simp only [condHolds, Bool.or_eq_true, Bool.and_eq_true, Bool.not_eq_true', ← Bool.not_eq_true, beq_iff_eq, bne_iff_ne, hz,
    hl, hge, hint, ne_eq, true_and]
  omega

end Sys2Proof.Machine

/-! The family `other`, CALL, RET and the stack (44_control.md, 45_stack.md, 40_execution_model.md R142). -/

namespace Sys2Proof.Machine

/-! ## A push

CALL and PUSHQ leave one state with their slot in bounds, for the word and the pc of each. -/

/-- `v` stored at the slot below the stack pointer, the stack pointer there, the pc at `p` (44_control.md R207, 45_stack.md R220). -/
def State.pushed (s : State) (v p : Word) : State :=
  ((s.setMem (s.mem.writeLE (s.reg .rsp - 8).toNat 8 v)).setReg .rsp (s.reg .rsp - 8)).setPc p

theorem exec_call_inBounds {d : Word} {s : State} (h : s.inBounds (s.reg .rsp - 8) 8) :
    exec (.call d) s = .next (s.pushed (s.pc + 9) d) :=
  congrArg Host.Outcome.next (State.storeThen_inBounds h _ _)

theorem exec_pushq_inBounds {rA : Reg} {s : State} (h : s.inBounds (s.reg .rsp - 8) 8) :
    exec (.pushq rA) s = .next (s.pushed (s.reg rA) (s.pc + 2)) :=
  congrArg Host.Outcome.next (State.storeThen_inBounds h _ _)

/-- The bytes of the word in the slot, the stack pointer, the pc, and everything else as before. -/
theorem State.pushed_frame {s : State} (hwf : s.mem.wf) (v p : Word) :
    (∀ k, k < 8 → (s.pushed v p).byteAt ((s.reg .rsp - 8).toNat + k) = v.extractLsb' (8 * k) 8) ∧
      SameBytesOutside (s.reg .rsp - 8).toNat 8 s (s.pushed v p) ∧ (s.pushed v p).reg .rsp = s.reg .rsp - 8 ∧
      SameRegsExcept [.rsp] s (s.pushed v p) ∧ (s.pushed v p).pc = p ∧ (s.pushed v p).flags = s.flags ∧
      (s.pushed v p).stat = s.stat ∧ SameHost s (s.pushed v p) := by
  obtain ⟨hreg, hregs, hpc, hflags, hstat, -, hhost⟩ :=
    (s.setMem (s.mem.writeLE (s.reg .rsp - 8).toNat 8 v)).setReg_setPc_frame .rsp (s.reg .rsp - 8) p
  exact ⟨fun _ hk => Memory.read_writeLE_inside hwf v hk, fun _ hb => Memory.read_writeLE_outside hwf v hb, hreg, hregs, hpc,
    hflags, hstat, hhost⟩

/-- Settles O38: a call pushes the return address and goes to its destination. -/
theorem callInBounds : Obligations.CallInBounds := fun d s hwf hb =>
  ⟨_, exec_call_inBounds hb, s.pushed_frame hwf (s.pc + 9) d⟩

/-- Settles O40: the pushed word is read before the stack pointer moves. -/
theorem pushInBounds : Obligations.PushInBounds := fun rA s hwf hb =>
  ⟨_, exec_pushq_inBounds hb, s.pushed_frame hwf (s.reg rA) (s.pc + 2)⟩

/-! ## A pop -/

theorem exec_ret_inBounds {s : State} (h : s.inBounds (s.reg .rsp) 8) : exec .ret s =
    .next ((s.setReg .rsp (s.reg .rsp + 8)).setPc (s.mem.readWord (s.reg .rsp).toNat)) :=
  congrArg Host.Outcome.next (State.loadThen_inBounds h _)

theorem exec_popq_inBounds {rA : Reg} {s : State} (h : s.inBounds (s.reg .rsp) 8) : exec (.popq rA) s =
    .next (((s.setReg .rsp (s.reg .rsp + 8)).setReg rA (s.mem.readWord (s.reg .rsp).toNat)).setPc (s.pc + 2)) :=
  congrArg Host.Outcome.next (State.loadThen_inBounds h _)

/-- Settles O39: the pc takes the word of the image, whose bytes are those read. -/
theorem returnInBounds : Obligations.ReturnInBounds := by
  intro s hb
  obtain ⟨hreg, hregs, hpc, hframe⟩ := s.setReg_setPc_frame .rsp (s.reg .rsp + 8) (s.mem.readWord (s.reg .rsp).toNat)
  refine ⟨_, exec_ret_inBounds hb, fun k hk => ?_, hreg, hregs, hframe⟩
  rw [hpc, Memory.extractLsb'_readWord _ _ hk, State.byteAt]

/-- Settles O41: the destination is written last, so it holds the word also when it is the stack pointer. -/
theorem popInBounds : Obligations.PopInBounds := by
  intro rA s hb
  refine ⟨_, exec_popq_inBounds hb, fun k hk => ?_, fun hne => ?_, ?_, rfl, rfl, rfl, fun _ => rfl, SameHost.refl s⟩
  · rw [State.setPc_reg, State.setReg_reg, if_pos rfl, Memory.extractLsb'_readWord _ _ hk, State.byteAt]
  · simp [hne.symm]
  · exact (((SameRegsExcept.refl _ s).setReg (by simp) _).setReg (by simp) _).setPc _

/-! ## Faults -/

/-- Settles O42: each of the six begins with its access, whose fault is the whole effect. -/
theorem dataAccessOutOfBoundsFaults : Obligations.DataAccessOutOfBoundsFaults := by
  intro s
  have hstore {a : Word} (h : ¬ s.inBounds a 8) (v : Word) (k : State → State) :=
    congrArg (Host.Outcome.next (φ := Fault) (ρ := Refusal)) (State.storeThen_outOfBounds h v k)
  have hload {a : Word} (h : ¬ s.inBounds a 8) (k : Word → State → State) :=
    congrArg (Host.Outcome.next (φ := Fault) (ρ := Refusal)) (State.loadThen_outOfBounds h k)
  exact ⟨fun _ _ _ h => ⟨hstore h _ _, hload h _⟩, fun h => ⟨fun _ => hstore h _ _, fun _ => hstore h _ _⟩,
    fun h => ⟨hload h _, fun _ => hload h _⟩⟩

/-! ## A push and then a pop -/

/-- The slot of a push is where a pop then looks, so it is in bounds for both (40_execution_model.md R133). -/
theorem State.pushed_rsp (s : State) (v p : Word) : (s.pushed v p).reg .rsp = s.reg .rsp - 8 := by
  simp [State.pushed]

theorem State.pushed_inBounds {s : State} (h : s.inBounds (s.reg .rsp - 8) 8) (v p : Word) :
    (s.pushed v p).inBounds ((s.pushed v p).reg .rsp) 8 := by
  rw [State.pushed_rsp]
  exact h

/-- The word pushed is the word found at the stack pointer (20_memory.md R61). -/
theorem State.pushed_readWord {s : State} (hwf : s.mem.wf) (v p : Word) :
    (s.pushed v p).mem.readWord ((s.pushed v p).reg .rsp).toNat = v := by
  rw [State.pushed_rsp]
  exact Memory.readWord_writeLE hwf _ v

/-- With the stack pointer moved back every register is as before the push. -/
theorem State.pushed_popped_regs (l : List Reg) (s : State) (v p : Word) :
    SameRegsExcept l s ((s.pushed v p).setReg .rsp ((s.pushed v p).reg .rsp + 8)) := by
  intro r _
  rw [State.pushed_rsp, BitVec.sub_add_cancel, State.setReg_reg]
  split
  next h => rw [h]
  next h => simp [State.pushed, h]

/-- Settles O43: the pop finds the pushed word and moves the stack pointer back before it writes its destination. -/
theorem pushThenPopMovesTheValue : Obligations.PushThenPopMovesTheValue := by
  intro rA rB s hwf hb
  refine ⟨_, _, exec_pushq_inBounds hb, exec_popq_inBounds (State.pushed_inBounds hb _ _), ?_, ?_, ?_, rfl⟩
  · rw [State.setPc_reg, State.setReg_reg, if_pos rfl, State.pushed_readWord hwf]
  · exact ((State.pushed_popped_regs [rB] s _ _).setReg (List.mem_singleton_self rB) _).setPc _
  · rw [State.setPc_pc, State.pushed, State.setPc_pc, BitVec.add_assoc]
    rfl

/-- Settles O44: the return finds the pushed word and moves the stack pointer back. -/
theorem callThenReturnComesBack : Obligations.CallThenReturnComesBack := by
  intro d s hwf hb
  refine ⟨_, _, exec_call_inBounds hb, rfl, exec_ret_inBounds (State.pushed_inBounds hb _ _), ?_, ?_, rfl⟩
  · rw [State.setPc_pc, State.pushed_readWord hwf]
  · exact (State.pushed_popped_regs [] s (s.pc + 9) d).setPc _

end Sys2Proof.Machine

/-! The family `other`, IOTRAP (46_iotrap.md). -/

namespace Sys2Proof.Machine

/-- The six IOTRAP instructions with their numbers (30_encoding.md R95). -/
def iotraps : List (Instr × Fin 6) :=
  [(.iotrap0, 0), (.iotrap1, 1), (.iotrap2, 2), (.iotrap3, 3), (.iotrap4, 4), (.iotrap5, 5)]

theorem trapNumber_of_mem_iotraps {p : Instr × Fin 6} (hp : p ∈ iotraps) : trapNumber p.1 = some p.2 := by
  revert p
  decide

/-- Each of the six runs the trap of its number's kind (46_iotrap.md R230). -/
theorem exec_of_mem_iotraps {p : Instr × Fin 6} (hp : p ∈ iotraps) (s : State) :
    exec p.1 s = .next (s.ioTrap (s.trapKind p.2)) :=
  exec_of_trapNumber (trapNumber_of_mem_iotraps hp) s

/-- Settles O45: the three output kinds have one effect, with the text the model draws. -/
theorem outputTraps : Obligations.OutputTraps := by
  intro p hp s hk
  refine ⟨Config.outputText s.outputDraws, ?_⟩
  rw [exec_of_mem_iotraps hp]
  rcases hk with hk | hk | hk <;> rw [hk] <;> rfl

/-- Settles O46: a trap of the flush kind is `State.flushTrap`. -/
theorem flushTraps : Obligations.FlushTraps := by
  intro p hp s hk
  rw [exec_of_mem_iotraps hp, hk]
  rfl

/-- Settles O48: a trap of the unrecognised kind writes the status alone. -/
theorem unrecognisedTraps : Obligations.UnrecognisedTraps := by
  intro p hp s hk
  rw [exec_of_mem_iotraps hp, hk]
  rfl

/-- Settles O47: an input trap of `n` bytes in the three cases of the host's answer and the slot. -/
theorem inputTraps : Obligations.InputTraps := by
  intro p hp s n hwf hk
  have htrap : s.ioTrap (s.trapKind p.2) = s.drawInput.inputAnswered n (Config.hostAnswer s.inputDraws) := by
    rcases hk with ⟨hk, rfl⟩ | ⟨hk, rfl⟩ <;> rw [hk] <;> rfl
  refine ⟨_, exec_of_mem_iotraps hp s, ?_⟩
  rw [htrap]
  rcases s.drawInput.inputAnswered_cases n (Config.hostAnswer s.inputDraws) with
    ⟨v, hv, hb, e⟩ | ⟨v, hv, hb, e⟩ | ⟨hv, e⟩ <;> rw [e, hv] <;>
    refine ⟨SameRegsExcept.refl [] s, rfl, rfl, rfl, rfl, rfl, rfl, ?_⟩
  · exact (if_pos hb).mpr ⟨fun _ hk => Memory.read_writeLE_inside hwf v hk, fun _ hb => Memory.read_writeLE_outside hwf v hb,
      rfl, rfl⟩
  · exact (if_neg hb).mpr ⟨fun _ => rfl, rfl, rfl⟩
  · exact ⟨fun _ => rfl, rfl, rfl⟩

/-- Settles O49: the cases of a trap, none of which writes a register, a flag or a byte outside an answered input trap's slot. -/
theorem iotrapEnvelope : Obligations.IotrapEnvelope := by
  intro p hp s hwf ha
  have hn := trapNumber_of_mem_iotraps hp
  obtain ⟨t, ht⟩ := exec_answers_next p.1 s
  obtain ⟨-, hregs, hflags, hcases⟩ := exec_of_trap ht hn
  refine ⟨t, ht, fun r _ => State.reg_congr hregs r, hflags, ?_⟩
  have hsame (hm : t.mem = s.mem) : SameBytes s t := State.byteAt_congr hm
  have houtside (hm : t.mem = s.mem) : SameBytesOutside s.config.trapSlot.toNat (inputBytes (s.trapKind p.2)) s t :=
    fun a _ => hsame hm a
  rcases hcases with ⟨-, -, hs, hm, hpc⟩ | ⟨-, hs, hm, -⟩ |
    ⟨-, h0, ⟨v, hv, -, hs, hm, hpc⟩ | ⟨v, -, hb, hs, hm, -⟩ | ⟨-, hs, hm, -⟩⟩
  · exact ⟨houtside hm, fun _ => hsame hm, .inl (hs.trans ha), fun _ => hpc⟩
  · exact ⟨houtside hm, fun _ => hsame hm, .inr (.inl hs), fun h => by rw [hs] at h; cases h⟩
  · refine ⟨fun a hout => ?_, fun hnone => ?_, .inl (hs.trans ha), fun _ => hpc⟩
    · rw [State.byteAt, hm, Memory.read_writeLE_outside hwf v hout, State.byteAt]
    · rw [hv] at hnone; cases hnone
  · exact ⟨houtside hm, fun _ => hsame hm, .inr (.inr ⟨hs, h0, hb⟩), fun h => by rw [hs] at h; cases h⟩
  · exact ⟨houtside hm, fun _ => hsame hm, .inr (.inl hs), fun h => by rw [hs] at h; cases h⟩

end Sys2Proof.Machine

/-! The family `other`, the bounds of memory and a store into the next instruction (20_memory.md R53, R64). -/

namespace Sys2Proof.Machine

/-- Read as a signed integer a word lies between 0 and a capacity of at most 2^63 exactly when it does unsigned (20_memory.md
R53). -/
theorem signed_in_capacity_iff {m : Nat} (hm : m ≤ 2 ^ 63) (w : Word) : (0 ≤ w.toInt ∧ w.toInt < m) ↔ w.toNat < m := by
  have := w.isLt
  rw [BitVec.toInt_eq_toNat_cond]
  split <;> omega

/-- Settles O52: an access in bounds does not wrap; conversely, byte after byte in bounds, the next address is one more. -/
theorem boundsTestIsTheSignedTest : Obligations.BoundsTestIsTheSignedTest := by
  intro s a n ⟨_, hmax⟩ hn
  simp only [signed_in_capacity_iff hmax, BitVec.toNat_add, BitVec.toNat_ofNat]
  unfold State.inBounds
  constructor
  · intro hb k hk
    omega
  · intro h
    induction n, hn using Nat.le_induction with
    | base =>
      have hfirst := h 0 Nat.one_pos
      omega
    | succ n _ ih =>
      have hbelow := ih fun k hk => h k (Nat.lt_succ_of_lt hk)
      have hlast := h n (Nat.lt_succ_self n)
      omega

/-- The end-of-step check leaves a state alone whose pc is in memory (60_exceptions.md R259). -/
theorem State.endOfStep_of_pc_lt {s : State} (h : s.pc.toNat < s.config.memSize) : s.endOfStep = s :=
  if_neg fun ⟨_, hpc⟩ => Nat.not_le.2 h hpc

/-- A window of at least eight bytes begins with the word at the pc (20_memory.md R56, 10_state.md R38). -/
theorem State.fetchWindow_take_word {s : State} (h : s.inBounds s.pc 8) :
    s.fetchWindow.take 8 = wordBytes (s.mem.readWord s.pc.toNat) := by
  rw [State.fetchWindow_take (by decide) h, Memory.wordBytes_readWord]

/-- Settles O53: the stored bytes lie in memory at the next pc, so the end-of-step check passes and the window begins with them. -/
theorem storeIsSeenByTheNextFetch : Obligations.StoreIsSeenByTheNextFetch := by
  intro s rA rB d _ hwf ha hf haddr hb
  have hexec := exec_rmmovq_inBounds (rA := rA) (haddr ▸ hb)
  rw [haddr] at hexec
  have hstep := step_of_fetch ha hf hexec
  rw [State.endOfStep_of_pc_lt (show (s.pc + 10).toNat < s.config.memSize by unfold State.inBounds at hb; omega)] at hstep
  refine ⟨_, hstep, ha, rfl, ?_⟩
  rw [State.fetchWindow_take_word hb]
  exact congrArg wordBytes (Memory.readWord_writeLE hwf _ _)

end Sys2Proof.Machine
